-- ==== Sys2Proof/Word.lean ====
section
/-! DEFINITION. The two word types of the CORE (00_scope.md R5, R10). -/

namespace Sys2Proof

/-- `u8`: a program byte (00_scope.md R10). -/
abbrev Byte := BitVec 8

/-- A 32-bit word: a stack value, a data-memory word, or `pc`.  Read with `toInt` it is the spec's
`i32` in two's complement (00_scope.md R5, R10); read with `toNat` it is the spec's `u32`. -/
abbrev Word := BitVec 32

end Sys2Proof
end

