-- ==== Sys2Proof/Config.lean ====
section
/-! DEFINITION. The parameters a build of the CORE fixes (00_scope.md R7 to R9) and the free values
the spec leaves open (10_state.md R27, 93_implementation_defined.md I8). -/

namespace Sys2Proof

/-- The capacity `STACK_CAP` of the operand stack: `INF` or a number (00_scope.md R7). -/
inductive StackCap where
  | inf
  | finite (n : Nat)
  deriving DecidableEq, Repr

/-- A stack of `d` values fits into the capacity: `d <= STACK_CAP` (10_state.md R15). -/
def StackCap.allows : StackCap → Nat → Bool
  | .inf, _ => true
  | .finite n, d => decide (d ≤ n)

/-- The two open parameters of 00_scope.md R9: a model takes them as arguments. -/
structure Config where
  /-- `STACK_CAP` (R7). -/
  stackCap : StackCap
  /-- `PROG_LEN_MAX` (R8). -/
  progLenMax : Nat
  deriving DecidableEq, Repr

/-- The reference value `STACK_CAP = INF` (00_scope.md R7) with the largest `PROG_LEN_MAX` that R8
allows.  DESIGN CHOICE (log 1): the spec leaves `PROG_LEN_MAX` open. -/
def Config.reference : Config := { stackCap := .inf, progLenMax := 2 ^ 32 - 1 }

/-- Free value: what read number `n` of the 4-bit port ERR gives while RUNNING (10_state.md R27). -/
opaque Config.freeErr : Nat → BitVec 4

/-- Free value: what read number `n` of the 32-bit port PC gives while RUNNING (10_state.md R27). -/
opaque Config.freePc : Nat → BitVec 32

/-- Free value: what read number `n` of the port DEPTH gives while RUNNING (10_state.md R27). -/
opaque Config.freeDepth : Nat → Nat

/-- Free value: what read number `n` of STK_DATA gives while RUNNING (10_state.md R27), or for an
index outside `0 <= STK_IDX < d`, for which R26 defines no value. -/
opaque Config.freeStkData : Nat → Word

/-- Free value: what read number `n` of MEM_DATA gives while RUNNING (10_state.md R27). -/
opaque Config.freeMemData : Nat → Word

end Sys2Proof
end

