-- ==== Sys2Proof/Machine/State.lean ====
section
/-! DEFINITION. The state of the CORE as plain data (10_state.md R13 to R25), with the host's inputs
and the build's parameters beside it, and the state after reset (70_reset_and_hazards.md R98). -/

namespace Sys2Proof.Machine

/-- The run status (10_state.md R21).  All four values of the 2-bit register are legal, so the type
has exactly four; `Status.code` (Flags.lean) gives their numbers. -/
inductive Status where
  /-- Reset done, no START yet. -/
  | idle
  /-- The execute loop is stepping. -/
  | running
  /-- The loop stopped because `pc >= L`. -/
  | haltedOk
  /-- The loop stopped on an error. -/
  | haltedErr
  deriving DecidableEq, Repr

/-- The eight error kinds (60_exceptions.md R81); `ErrorKind.code` (Flags.lean) numbers them. -/
inductive ErrorKind where
  | stackUnderflow
  | stackIsEmpty
  | notEnoughItemsInStack
  | memoryOutOfBounds
  | invalidJumpTarget
  | invalidOpcode
  | invalidProgramCounter
  | stackOverflow
  deriving DecidableEq, Repr

/-- What the host can do to the CORE between two steps (10_state.md R26, 70_reset_and_hazards.md
R102): RESET, put a program on the program ports, START. -/
inductive HostCommand where
  /-- The RESET command (70_reset_and_hazards.md R98, R104). -/
  | reset
  /-- The host presents these program bytes, and their number as PROG_LEN (10_state.md R25, R26). -/
  | present (program : List Byte)
  /-- The START command (70_reset_and_hazards.md R100). -/
  | start
  deriving DecidableEq, Repr

/-- The data memory: (word address, word) pairs, addresses strictly rising, listing only words that
are not the reset value `0` (`Memory.wf`, Ops.lean).  An unlisted word reads `0` (10_state.md R17,
R18).  The cells hold words, not bytes: the spec's data memory has no byte view (20_memory.md R35,
R39).  DESIGN CHOICE (log 9). -/
abbrev Memory := List (Nat × Word)

/-- What a word that no cell lists reads as: the reset value of every word (10_state.md R17). -/
def Memory.unlisted : Word := 0

/-- The machine.  The first five fields are the architectural state, exactly the five elements of
10_state.md R13.  The last three are no state of the CORE: its program input (R25), what the host
does to it (R26), and the parameters of the build (00_scope.md R9). -/
structure State where
  /-- The operand stack `S`, written as the spec writes it: bottom first, top last (10_state.md R15). -/
  stack : List Word
  /-- The data memory `M` (10_state.md R17). -/
  mem : Memory
  /-- The program counter (10_state.md R19). -/
  pc : BitVec 32
  /-- The run status register (10_state.md R21). -/
  status : Status
  /-- The 4-bit error-code register (10_state.md R23). -/
  err : BitVec 4
  /-- The program the host presents; `L` is its length (10_state.md R25).  Log 2. -/
  program : List Byte
  /-- What the host does at each coming step boundary: an entry `none` is a boundary at which it does
  nothing, and after the last entry it does nothing any more.  Log 3. -/
  host : List (Option HostCommand)
  /-- `STACK_CAP` and `PROG_LEN_MAX` of this build (00_scope.md R9).  Log 1. -/
  config : Config
  deriving DecidableEq, Repr

/-- A fault that stops the machine with no next state.  THE CORE HAS NONE: every error of the spec is
a halt in a state the spec describes (60_exceptions.md R84 to R86, R89), so it is a next state with
status HALTED_ERR, and this type has no constructor. -/
inductive Fault where
  deriving DecidableEq, Repr

/-- A situation the model gives no meaning to. -/
inductive Refusal where
  /-- An instruction that has no meaning yet, by its mnemonic; raised by `exec` alone.  No arm of this
  model raises it.  Safe. -/
  | notModelled (mnemonic : String)
  /-- The host presents a program longer than PROG_LEN_MAX: the spec says nothing of longer programs
  (92_eei_decisions.md D3; 93_implementation_defined.md I3: `refuse`).  Raised by the host command
  `present` (HostPort.lean), log 6.  Safe. -/
  | programTooLong
  /-- The host changes the program while RUNNING: nothing is said of such a run
  (70_reset_and_hazards.md R103; 93_implementation_defined.md I9: `refuse`).  Raised by the host
  command `present` (HostPort.lean), log 7.  Safe. -/
  | programChangedWhileRunning
  deriving DecidableEq, Repr

/-- What a step or an instruction answers. -/
abbrev Result := Host.Outcome State Fault Refusal

/-- The state after power-on, which is a RESET (70_reset_and_hazards.md R98): stack empty, memory all
0, `pc` 0, IDLE, no error.  The inputs stand at nothing presented and nothing to come, the parameters
at the reference values (DESIGN CHOICE: log 1, log 2, log 3). -/
def State.reset : State :=
  { stack := [], mem := [], pc := 0, status := .idle, err := 0,
    program := [], host := [], config := Config.reference }

end Sys2Proof.Machine
end

