-- ==== Sys2Proof/Machine/Flags.lean ====
section
/-! DEFINITION. The CORE has no flags or condition codes (10_state.md R14).  In their place this file
holds the numbers of its two registers of status, and the condition JumpIf tests. -/

namespace Sys2Proof.Machine

/-- The 2-bit code of `status` (10_state.md R21). -/
def Status.code : Status → BitVec 2
  | .idle => 0
  | .running => 1
  | .haltedOk => 2
  | .haltedErr => 3

/-- The 4-bit code of an error kind (60_exceptions.md R82). -/
def ErrorKind.code : ErrorKind → BitVec 4
  | .stackUnderflow => 1
  | .stackIsEmpty => 2
  | .notEnoughItemsInStack => 3
  | .memoryOutOfBounds => 4
  | .invalidJumpTarget => 5
  | .invalidOpcode => 6
  | .invalidProgramCounter => 7
  | .stackOverflow => 8

/-- `err` holding NONE, no error (60_exceptions.md R82). -/
def errNone : BitVec 4 := 0

/-- JumpIf's condition: any nonzero value, negative ones included, takes the branch
(43_control.md R75). -/
def condTaken (cond : Word) : Bool := decide (cond.toInt ≠ 0)

end Sys2Proof.Machine
end

