-- ==== Sys2Proof/Machine/Operands.lean ====
section
/-! DEFINITION. Operands: the inline byte of Push, the arithmetic law, the memory address checker and
the jump-target check. -/

namespace Sys2Proof.Machine

/-- `zext_32(b)`: the value of the byte, never sign-extended, scaled or shifted (00_scope.md R10,
30_encoding.md R51). -/
def zext32 (b : Byte) : Word := b.setWidth 32

/-- `wrap32(x)`: the unique `i32` congruent to `x` modulo `2^32` (00_scope.md R10, 41_arithmetic.md
R67). -/
def wrap32 (x : Int) : Word := BitVec.ofInt 32 x

/-- The number of data-memory words (00_scope.md R6). -/
def memWords : Nat := 256

/-- `InBounds(a)`: the memory address checker, a signed comparison; it neither wraps, masks nor
truncates (20_memory.md R36, R37). -/
def inBounds (a : Word) : Bool := decide (0 ≤ a.toInt ∧ a.toInt < memWords)

/-- `ValidTarget(t)` for a program of length `progLen`: a signed comparison (43_control.md R73). -/
def validTarget (t : Word) (progLen : Nat) : Bool := decide (0 ≤ t.toInt ∧ t.toInt < progLen)

/-- The program address a valid target names: the same 32 bits read as a `u32`, which is exact
because a valid target is not negative (43_control.md R73). -/
def targetPc (t : Word) : BitVec 32 := t

/-- The data address an in-bounds value names (20_memory.md R35). -/
def dataAddress (a : Word) : Nat := a.toNat

/-- Push's operand byte exists: `p + 1 < L` (40_stack.md R64). -/
def operandPresent (pc : BitVec 32) (progLen : Nat) : Bool := decide (pc.toNat + 1 < progLen)

end Sys2Proof.Machine
end

