-- ==== Sys2Proof/Machine/Ops.lean ====
section
/-! DEFINITION. The named operations over the state: data memory, the stack primitives, raising an
error, halting at the end of the program, and the sequencer's writes of `pc`.

An operation that can raise takes the rest of the instruction as its last argument, `next`: where it
raises, the instruction stops there and `next` does not run (00_scope.md R11). -/

namespace Sys2Proof.Machine

/-! ### Data memory (20_memory.md R33 to R36) -/

/-- The canonical form of the data memory: addresses strictly rising, all of them data addresses
`0 .. 255`, and no cell that holds what an unlisted word reads as. -/
abbrev Memory.wf (m : Memory) : Prop :=
  m.Pairwise (fun x y => x.1 < y.1) ∧ ∀ c ∈ m, c.1 < memWords ∧ c.2 ≠ Memory.unlisted

/-- `MemRead(a, 1)`, the word `M[a]` (00_scope.md R11). -/
def Memory.read : Memory → Nat → Word
  | [], _ => Memory.unlisted
  | (b, v) :: m, a => if b = a then v else Memory.read m a

/-- The cells that list the word `v` at address `a`: none where `v` is what an unlisted word reads as. -/
def Memory.cell (a : Nat) (v : Word) : Memory := if v = Memory.unlisted then [] else [(a, v)]

/-- `MemWrite(a, 1, v)`, `M[a] <- v`, keeping the canonical form (00_scope.md R11). -/
def Memory.write : Memory → Nat → Word → Memory
  | [], a, v => Memory.cell a v
  | (b, w) :: m, a, v =>
    if a < b then Memory.cell a v ++ (b, w) :: m
    else if a = b then Memory.cell a v ++ m
    else (b, w) :: Memory.write m a v

/-! ### The state's updates, one home each -/

/-- The state with another operand stack. -/
def State.withStack (s : State) (stack : List Word) : State := { s with stack := stack }

/-- The state with another data memory. -/
def State.withMem (s : State) (mem : Memory) : State := { s with mem := mem }

/-- The state with another program counter. -/
def State.withPc (s : State) (pc : BitVec 32) : State := { s with pc := pc }

/-- The state with another run status and error code: the two are written together or by RESET. -/
def State.withStatus (s : State) (status : Status) (err : BitVec 4) : State :=
  { s with status := status, err := err }

/-- The state with another program presented by the host. -/
def State.withProgram (s : State) (program : List Byte) : State := { s with program := program }

/-- The state with another schedule of the host. -/
def State.withHost (s : State) (host : List (Option HostCommand)) : State := { s with host := host }

/-! ### Reading the state -/

/-- `depth()`, the number of values on the stack (00_scope.md R11). -/
def State.depth (s : State) : Nat := s.stack.length

/-- `L`, the number of bytes of the program (00_scope.md R8). -/
def State.progLen (s : State) : Nat := s.program.length

/-- `peek(k)`, for `0 <= k < d`: the value `k` places below the top, `S[d-1-k]` (00_scope.md R11). -/
def State.peek (s : State) (k : Nat) (h : k < s.depth) : Word :=
  s.stack[s.depth - 1 - k]'(by unfold State.depth at *; omega)

/-- The stack has no room: `STACK_CAP` is finite and `d = STACK_CAP` (10_state.md R28). -/
def State.full (s : State) : Bool :=
  match s.config.stackCap with
  | .inf => false
  | .finite n => s.depth == n

/-! ### Errors and halting (60_exceptions.md) -/

/-- The state in which the error `e` halts the CORE: `err` holds its code, `status` is HALTED_ERR, and
nothing else changes: `pc` stays at the failing opcode byte and no change is rolled back
(60_exceptions.md R84, R85, R86). -/
def State.raised (s : State) (e : ErrorKind) : State := s.withStatus .haltedErr e.code

/-- `raise E`: the CORE's one exception, taken (60_exceptions.md R84).  There is no return from it but
the host's START (R90; `commandStart` in HostPort.lean). -/
def raise (e : ErrorKind) (s : State) : Result := .next (s.raised e)

/-- The end of the program: `status <- HALTED_OK`, and `S`, `M`, `pc`, `err` unchanged
(30_encoding.md R60). -/
def haltOk (s : State) : Result := .next (s.withStatus .haltedOk s.err)

/-! ### The stack primitives (10_state.md R28 to R30) -/

/-- `push(v)`: raises StackOverflow on a full stack of finite capacity, else `v` is the new top
(10_state.md R28). -/
def push (v : Word) (s : State) (next : State → Result) : Result :=
  if s.full then raise .stackOverflow s else next (s.withStack (s.stack ++ [v]))

/-- `pop()`: raises StackUnderflow on an empty stack, else removes the top and hands it on
(10_state.md R29). -/
def pop (s : State) (next : Word → State → Result) : Result :=
  match s.stack.getLast? with
  | none => raise .stackUnderflow s
  | some v => next v (s.withStack s.stack.dropLast)

/-- `require(k, E)`: raises `e` on a stack of fewer than `k` values, which it does not touch, else the
instruction goes on, knowing that they are there (10_state.md R30). -/
def require (k : Nat) (e : ErrorKind) (s : State) (next : k ≤ s.depth → Result) : Result :=
  if h : k ≤ s.depth then next h else raise e s

/-- Puts `vs` (bottom first) in the place of the top `vs.length` values. -/
def State.replaceTop (s : State) (vs : List Word) : State :=
  s.withStack (s.stack.take (s.depth - vs.length) ++ vs)

/-! ### The sequencer's writes of `pc` (30_encoding.md R58) -/

/-- The instruction completes and `pc` moves past its `n` bytes. -/
def advance (n : Nat) (s : State) : Result := .next (s.withPc (s.pc + BitVec.ofNat 32 n))

/-- The instruction completes and `pc` is the jump's target: no auto-increment (43_control.md R74). -/
def jumpTo (target : Word) (s : State) : Result := .next (s.withPc (targetPc target))

/-! ### The ALU dispatch engine (41_arithmetic.md R66) -/

/-- `BinOp(f)`: pops the right-hand operand `b`, then the left-hand operand `a`, and pushes
`wrap32(f(a, b))` (41_arithmetic.md R66, R67). -/
def binOp (f : Int → Int → Int) (s : State) : Result :=
  pop s fun b s => pop s fun a s => push (wrap32 (f a.toInt b.toInt)) s fun s => advance 1 s

end Sys2Proof.Machine
end

