-- ==== Sys2Proof/Machine/Arithmetic.lean ====
section
/-! DEFINITION. The arithmetic instructions (41_arithmetic.md). -/

namespace Sys2Proof.Machine

/-- Add: `BinOp(+)` (41_arithmetic.md R68). -/
def execAdd (s : State) : Result := binOp (fun a b => a + b) s

/-- Sub: `BinOp(-)`, the next on stack less the top (41_arithmetic.md R69). -/
def execSub (s : State) : Result := binOp (fun a b => a - b) s

/-- Mul: `BinOp(*)` (41_arithmetic.md R70). -/
def execMul (s : State) : Result := binOp (fun a b => a * b) s

end Sys2Proof.Machine
end

