-- ==== Sys2Proof/Machine/Control.lean ====
section
/-! DEFINITION. The control-transfer instructions (43_control.md). -/

namespace Sys2Proof.Machine

/-- Jmp (43_control.md R74). -/
def execJmp (s : State) : Result :=
  pop s fun target s =>
    if validTarget target s.progLen then jumpTo target s else raise .invalidJumpTarget s

/-- JumpIf (43_control.md R75): the condition is popped first (90_conflicts.md C2), and the target is
checked whether or not the branch is taken. -/
def execJumpIf (s : State) : Result :=
  pop s fun cond s => pop s fun target s =>
    if validTarget target s.progLen then
      if condTaken cond then jumpTo target s else advance 1 s
    else raise .invalidJumpTarget s

end Sys2Proof.Machine
end

