-- ==== Sys2Proof/Machine/LoadStore.lean ====
section
/-! DEFINITION. The data-memory instructions (42_load_store.md). -/

namespace Sys2Proof.Machine

/-- Store (42_load_store.md R71): the address is popped first, the value second, and both pops come
before the bounds check. -/
def execStore (s : State) : Result :=
  pop s fun addr s => pop s fun value s =>
    if inBounds addr then advance 1 (s.withMem (s.mem.write (dataAddress addr) value))
    else raise .memoryOutOfBounds s

/-- Load (42_load_store.md R72). -/
def execLoad (s : State) : Result :=
  pop s fun addr s =>
    if inBounds addr then push (s.mem.read (dataAddress addr)) s fun s => advance 1 s
    else raise .memoryOutOfBounds s

end Sys2Proof.Machine
end

