-- ==== Sys2Proof/Machine/Stack.lean ====
section
/-! DEFINITION. The stack instructions (40_stack.md). -/

namespace Sys2Proof.Machine

/-- Push (40_stack.md R64): the check that the operand byte exists comes first, then the push of the
zero-extended byte, then `pc <- p + 2`. -/
def execPush (imm8 : Byte) (s : State) : Result :=
  if operandPresent s.pc s.progLen then push (zext32 imm8) s fun s => advance 2 s
  else raise .invalidProgramCounter s

/-- Pop (40_stack.md R65). -/
def execPop (s : State) : Result :=
  pop s fun _ s => advance 1 s

end Sys2Proof.Machine
end

