-- ==== Sys2Proof/Machine/StackManip.lean ====
section
/-! DEFINITION. The stack-manipulation instructions (44_stack_manipulation.md). -/

namespace Sys2Proof.Machine

/-- Dup (44_stack_manipulation.md R76). -/
def execDup (s : State) : Result :=
  require 1 .stackIsEmpty s fun h =>
    push (s.peek 0 (by omega)) s fun s => advance 1 s

/-- Swap (44_stack_manipulation.md R77). -/
def execSwap (s : State) : Result :=
  require 2 .notEnoughItemsInStack s fun h =>
    advance 1 (s.replaceTop [s.peek 0 (by omega), s.peek 1 (by omega)])

/-- Rot (44_stack_manipulation.md R78): `(a, b, c)` becomes `(b, c, a)` with `c` the old top
(90_conflicts.md C3). -/
def execRot (s : State) : Result :=
  require 3 .notEnoughItemsInStack s fun h =>
    advance 1 (s.replaceTop [s.peek 1 (by omega), s.peek 0 (by omega), s.peek 2 (by omega)])

/-- Over (44_stack_manipulation.md R79). -/
def execOver (s : State) : Result :=
  require 2 .notEnoughItemsInStack s fun h =>
    push (s.peek 1 (by omega)) s fun s => advance 1 s

/-- Pick (44_stack_manipulation.md R80): `n` is popped first, and of the remaining `d'` values the one
`n` places down is copied, `S[d' - n] = peek(n - 1)`, for `1 <= n < d'` only (90_conflicts.md C1). -/
def execPick (s : State) : Result :=
  pop s fun n s =>
    if h : 1 ≤ n.toInt ∧ n.toInt < s.depth then
      push (s.peek (n.toInt.toNat - 1) (by omega)) s fun s => advance 1 s
    else raise .notEnoughItemsInStack s

end Sys2Proof.Machine
end

