-- ==== Sys2Proof/Syntax.lean ====
section
/-! DEFINITION. The instruction set SSVM-14: one constructor per row of spec/opcode_table.json, in the
table's order (30_encoding.md R52). -/

namespace Sys2Proof

/-- The 14 instructions (30_encoding.md R52).  Only Push has an inline operand, one byte (R51); every
other operand comes from the operand stack. -/
inductive Instr where
  /-- `Push imm8`, opcode `0x01`, format F2 (40_stack.md R64). -/
  | push (imm8 : Byte)
  /-- `Pop`, opcode `0x02` (40_stack.md R65). -/
  | pop
  /-- `Add`, opcode `0x03` (41_arithmetic.md R68). -/
  | add
  /-- `Sub`, opcode `0x04` (41_arithmetic.md R69). -/
  | sub
  /-- `Store`, opcode `0x05` (42_load_store.md R71). -/
  | store
  /-- `Load`, opcode `0x06` (42_load_store.md R72). -/
  | load
  /-- `Jmp`, opcode `0x07` (43_control.md R74). -/
  | jmp
  /-- `JumpIf`, opcode `0x08` (43_control.md R75). -/
  | jumpIf
  /-- `Dup`, opcode `0x09` (44_stack_manipulation.md R76). -/
  | dup
  /-- `Swap`, opcode `0x10` (44_stack_manipulation.md R77). -/
  | swap
  /-- `Rot`, opcode `0x11` (44_stack_manipulation.md R78). -/
  | rot
  /-- `Over`, opcode `0x12` (44_stack_manipulation.md R79).  The constructor has the glossary's NOS in
  its name (00_scope.md R12) because `over` is a keyword of the library. -/
  | overNos
  /-- `Pick`, opcode `0x13` (44_stack_manipulation.md R80). -/
  | pick
  /-- `Mul`, opcode `0x14` (41_arithmetic.md R70). -/
  | mul
  deriving DecidableEq, Repr

end Sys2Proof
end

