-- ==== Sys2Proof/Machine/Dispatch.lean ====
section
/-! DEFINITION. `Execute(op)`: the rule of each instruction (30_encoding.md R62). -/

namespace Sys2Proof.Machine

/-- Runs the decoded instruction (30_encoding.md R62). -/
def exec (i : Instr) (s : State) : Host.Outcome State Fault Refusal :=
  match i with
  | .push imm8 => Sys2Proof.Machine.execPush imm8 s
  | .pop => Sys2Proof.Machine.execPop s
  | .add => Sys2Proof.Machine.execAdd s
  | .sub => Sys2Proof.Machine.execSub s
  | .store => Sys2Proof.Machine.execStore s
  | .load => Sys2Proof.Machine.execLoad s
  | .jmp => Sys2Proof.Machine.execJmp s
  | .jumpIf => Sys2Proof.Machine.execJumpIf s
  | .dup => Sys2Proof.Machine.execDup s
  | .swap => Sys2Proof.Machine.execSwap s
  | .rot => Sys2Proof.Machine.execRot s
  | .overNos => Sys2Proof.Machine.execOver s
  | .pick => Sys2Proof.Machine.execPick s
  | .mul => Sys2Proof.Machine.execMul s

end Sys2Proof.Machine
end

