-- ==== Sys2Proof/Decode.lean ====
section
/-! DEFINITION. The opcode decoder (30_encoding.md R48 to R56), total on every list of bytes and
rejecting by name, and after it the encoder. -/

namespace Sys2Proof

/-- The tags of the closed opcode map (30_encoding.md R52). -/
inductive Opcode where
  | push | pop | add | sub | store | load | jmp | jumpIf | dup | swap | rot | overNos | pick | mul
  deriving DecidableEq, Repr

/-- The opcode map as 30_encoding.md R52 prints it: opcode byte and tag. -/
def opcodeMap : List (Byte × Opcode) :=
  [(0x01, .push), (0x02, .pop), (0x03, .add), (0x04, .sub), (0x05, .store), (0x06, .load),
   (0x07, .jmp), (0x08, .jumpIf), (0x09, .dup)] ++
  [(0x10, .swap), (0x11, .rot), (0x12, .overNos), (0x13, .pick), (0x14, .mul)]

/-- `Decode(b)` of 30_encoding.md R54: the tag of the byte, or none for one of the 242 invalid
opcode bytes (R53). -/
def decodeOpcode (b : Byte) : Option Opcode :=
  (opcodeMap.find? fun row => row.1 == b).map Prod.snd

/-- The length of an instruction in bytes, which its opcode byte alone tells (30_encoding.md R50). -/
def Opcode.length : Opcode → Nat
  | .push => 2
  | .pop | .add | .sub | .store | .load | .jmp | .jumpIf | .dup | .swap | .rot | .overNos | .pick
  | .mul => 1

/-- Why a list of bytes begins with no instruction. -/
inductive DecodeError where
  /-- There is no byte at all: at the end of a program this is `pc >= L` (30_encoding.md R60). -/
  | endOfBytes
  /-- The first byte is none of the 14 opcodes (30_encoding.md R53, R54). -/
  | invalidOpcode (b : Byte)
  /-- The first byte is Push and no byte follows it (40_stack.md R64). -/
  | operandMissing
  deriving DecidableEq, Repr

/-- The instruction a list of bytes begins with, and the bytes after it (30_encoding.md R48 to R51).
The operand byte of Push is not decoded as an opcode (R54). -/
def decode : List Byte → Except DecodeError (Instr × List Byte)
  | [] => .error .endOfBytes
  | b :: rest =>
    match decodeOpcode b with
    | none => .error (.invalidOpcode b)
    | some .push =>
      match rest with
      | [] => .error .operandMissing
      | imm8 :: rest => .ok (.push imm8, rest)
    | some .pop => .ok (.pop, rest)
    | some .add => .ok (.add, rest)
    | some .sub => .ok (.sub, rest)
    | some .store => .ok (.store, rest)
    | some .load => .ok (.load, rest)
    | some .jmp => .ok (.jmp, rest)
    | some .jumpIf => .ok (.jumpIf, rest)
    | some .dup => .ok (.dup, rest)
    | some .swap => .ok (.swap, rest)
    | some .rot => .ok (.rot, rest)
    | some .overNos => .ok (.overNos, rest)
    | some .pick => .ok (.pick, rest)
    | some .mul => .ok (.mul, rest)

/-- The two bytes of an instruction word of `nbits` bits as spec/opcode_table.json numbers them: bits
7..0 are the opcode byte, bits 15..8 the byte after it; every bit above `nbits` is 0. -/
def tableBytes (nbits w : Nat) : List Byte :=
  [BitVec.ofNat 8 (w % 2 ^ nbits), BitVec.ofNat 8 (w % 2 ^ nbits / 2 ^ 8)]

/-- The instruction the decoder reads from an instruction word of the opcode table. -/
def decodeTableWord (nbits w : Nat) : Option Instr :=
  match decode (tableBytes nbits w) with
  | .ok (i, _) => some i
  | .error _ => none

/-- The tag of an instruction. -/
def Instr.opcode : Instr → Opcode
  | .push _ => .push
  | .pop => .pop
  | .add => .add
  | .sub => .sub
  | .store => .store
  | .load => .load
  | .jmp => .jmp
  | .jumpIf => .jumpIf
  | .dup => .dup
  | .swap => .swap
  | .rot => .rot
  | .overNos => .overNos
  | .pick => .pick
  | .mul => .mul

/-- The opcode byte of a tag (30_encoding.md R52). -/
def Opcode.byte : Opcode → Byte
  | .push => 0x01
  | .pop => 0x02
  | .add => 0x03
  | .sub => 0x04
  | .store => 0x05
  | .load => 0x06
  | .jmp => 0x07
  | .jumpIf => 0x08
  | .dup => 0x09
  | .swap => 0x10
  | .rot => 0x11
  | .overNos => 0x12
  | .pick => 0x13
  | .mul => 0x14

/-- The bytes of an instruction: formats F1 and F2 (30_encoding.md R49, R51, R57). -/
def encode : Instr → List Byte
  | .push imm8 => [Opcode.push.byte, imm8]
  | .pop => [Opcode.pop.byte]
  | .add => [Opcode.add.byte]
  | .sub => [Opcode.sub.byte]
  | .store => [Opcode.store.byte]
  | .load => [Opcode.load.byte]
  | .jmp => [Opcode.jmp.byte]
  | .jumpIf => [Opcode.jumpIf.byte]
  | .dup => [Opcode.dup.byte]
  | .swap => [Opcode.swap.byte]
  | .rot => [Opcode.rot.byte]
  | .overNos => [Opcode.overNos.byte]
  | .pick => [Opcode.pick.byte]
  | .mul => [Opcode.mul.byte]

/-- The bytes of a straight-line sequence of instructions, one after the other with no padding
(30_encoding.md R48, R57). -/
def assemble : List Instr → List Byte
  | [] => []
  | i :: is => encode i ++ assemble is

end Sys2Proof
end

