-- ==== Sys2Proof/Machine/Fetch.lean ====
section
/-! DEFINITION. Instruction fetch (20_memory.md R34, 30_encoding.md R48, R54, R56, R60). -/

namespace Sys2Proof.Machine

/-- The program bytes from `pc` on: byte `k` of the list is `ProgRead(pc + k)`, and the list is empty
exactly where `pc >= L` (00_scope.md R11, 20_memory.md R34). -/
def State.bytesAtPc (s : State) : List Byte := s.program.drop s.pc.toNat

/-- The instruction at `pc`.  Decoding depends on the position only (30_encoding.md R56). -/
def fetch (s : State) : Except DecodeError Instr :=
  match decode s.bytesAtPc with
  | .ok (i, _) => .ok i
  | .error e => .error e

/-- What a step does where there is no instruction at `pc`: the run ends successfully at `pc >= L`
(30_encoding.md R60), a byte that is no opcode raises InvalidOpcode (R54), and a Push with no operand
byte raises InvalidProgramCounter (40_stack.md R64). -/
def noInstruction (e : DecodeError) (s : State) : Result :=
  match e with
  | .endOfBytes => haltOk s
  | .invalidOpcode _ => raise .invalidOpcode s
  | .operandMissing => raise .invalidProgramCounter s

/-- The program with `bytes` at program address `a`; the program is made longer, with bytes 0, where it
does not reach that far. -/
def placeBytes (program : List Byte) (a : Nat) (bytes : List Byte) : List Byte :=
  program.take a ++ List.replicate (a - program.length) 0 ++ bytes ++
    program.drop (a + bytes.length)

end Sys2Proof.Machine
end

