-- ==== Sys2Proof/WellFormed.lean ====
section
/-! DEFINITION. The checks the spec puts on a build's parameters and on a program.

An instruction needs no check of its own: the one field of `Instr`, the literal of Push, is a `Byte`,
so the bound `0 .. 255` of 30_encoding.md R51 and R57 holds of every value of the type, and every
`Instr` has an encoding. -/

namespace Sys2Proof

/-- `STACK_CAP` is a positive integer or `INF` (00_scope.md R7). -/
def StackCap.wf : StackCap → Bool
  | .inf => true
  | .finite n => decide (0 < n)

/-- The parameters are legal: R7 for `STACK_CAP`, and `PROG_LEN_MAX <= 2^32 - 1` (00_scope.md R8). -/
def Config.wf (c : Config) : Bool :=
  c.stackCap.wf && decide (c.progLenMax ≤ 2 ^ 32 - 1)

/-- The program's length `L` is allowed: `L <= PROG_LEN_MAX` (00_scope.md R8). -/
def Config.admits (c : Config) (program : List Byte) : Bool :=
  decide (program.length ≤ c.progLenMax)

end Sys2Proof
end

