-- ==== Sys2Proof/Machine/HostPort.lean ====
section
/-! DEFINITION. The host's side of the CORE: its commands (70_reset_and_hazards.md R98, R100, R102 to
R104) and the read-back ports (10_state.md R26, R27). -/

namespace Sys2Proof.Machine

/-! ### Commands, taken between two steps -/

/-- RESET: every state element to its reset value, whatever `status` is; the program input is not
touched (70_reset_and_hazards.md R98, R104). -/
def commandReset (s : State) : Result :=
  .next { State.reset with program := s.program, host := s.host, config := s.config }

/-- The host presents a program on the program ports (10_state.md R25; 70_reset_and_hazards.md R102).
A program longer than PROG_LEN_MAX is refused (93_implementation_defined.md I3, log 6), and so is
another program than the present one while RUNNING (70_reset_and_hazards.md R103, log 7). -/
def commandPresent (program : List Byte) (s : State) : Result :=
  if s.status = .running ∧ program ≠ s.program then .refused .programChangedWhileRunning
  else if s.config.admits program then .next (s.withProgram program)
  else .refused .programTooLong

/-- START: `err <- 0` and `status <- RUNNING`, with `S`, `M` and `pc` as they are; ignored while
RUNNING (70_reset_and_hazards.md R100).  After an error it is the only way on: the failing instruction
runs again (60_exceptions.md R90). -/
def commandStart (s : State) : Result :=
  if s.status = .running then .next s else .next (s.withStatus .running errNone)

/-- The CORE takes one command of the host. -/
def hostCommand (c : HostCommand) (s : State) : Result :=
  match c with
  | .reset => commandReset s
  | .present program => commandPresent program s
  | .start => commandStart s

/-- The command the host gives at this step boundary, if any. -/
def State.pendingCommand (s : State) : Option HostCommand := s.host.head?.join

/-- The state with this boundary's entry of the host's schedule used up. -/
def State.afterBoundary (s : State) : State := s.withHost s.host.tail

/-! ### Read-back ports

A read-back changes no state (10_state.md R27), so a port is a function of the state.  `n` is the
number of the read: it tells one read from another where the value read is free (log 8). -/

/-- Port STATUS, readable at any time (10_state.md R26, R27). -/
def readStatus (s : State) : BitVec 2 := s.status.code

/-- Port ERR: no defined value while RUNNING (10_state.md R27). -/
def readErr (n : Nat) (s : State) : BitVec 4 :=
  if s.status = .running then Config.freeErr n else s.err

/-- Port PC: no defined value while RUNNING (10_state.md R27). -/
def readPc (n : Nat) (s : State) : BitVec 32 :=
  if s.status = .running then Config.freePc n else s.pc

/-- The width of port DEPTH, `ceil(log2(STACK_CAP + 1))`, or none where it is unbounded (10_state.md
R26).  For a positive capacity `c` this is the number of binary digits of `c`. -/
def depthPortWidth : StackCap → Option Nat
  | .inf => none
  | .finite c => some (c.log2 + 1)

/-- Port DEPTH: no defined value while RUNNING, but one that fits the port (10_state.md R26, R27). -/
def readDepth (n : Nat) (s : State) : Nat :=
  if s.status = .running then
    match depthPortWidth s.config.stackCap with
    | none => Config.freeDepth n
    | some w => Config.freeDepth n % 2 ^ w
  else s.depth

/-- Ports STK_IDX and STK_DATA: `S[idx]`, index 0 the bottom, for `idx < d` (10_state.md R26); no
defined value while RUNNING (R27) or for another index. -/
def readStkData (n : Nat) (idx : Nat) (s : State) : Word :=
  if s.status = .running then Config.freeStkData n
  else
    match s.stack[idx]? with
    | some v => v
    | none => Config.freeStkData n

/-- Ports MEM_IDX (8 bits) and MEM_DATA: `M[idx]`; no defined value while RUNNING (10_state.md R26,
R27). -/
def readMemData (n : Nat) (idx : BitVec 8) (s : State) : Word :=
  if s.status = .running then Config.freeMemData n else s.mem.read idx.toNat

end Sys2Proof.Machine
end

