-- ==== Sys2Proof/Machine/Step.lean ====
section
/-! DEFINITION. One step of the machine: what the host does at this step boundary, or one step of the
execute loop (30_encoding.md R60). -/

namespace Sys2Proof.Machine

/-- `Step()` of 30_encoding.md R60, for a CORE that is RUNNING. -/
def coreStep (s : State) : Result :=
  match fetch s with
  | .ok i => exec i s
  | .error e => noInstruction e s

/-- One step.  A command of the host is taken between two steps of the CORE (70_reset_and_hazards.md
R104), so it is a step of its own.  With no command a RUNNING CORE takes one step of the execute loop,
and a CORE that is not RUNNING takes none and keeps all its state (60_exceptions.md R97; log 4). -/
def step (s : State) : Host.Outcome State Fault Refusal :=
  match s.pendingCommand with
  | some c => hostCommand c s.afterBoundary
  | none => if s.status = .running then coreStep s.afterBoundary else .next s.afterBoundary

/-- The state in which the very next step fetches and runs the instruction word `w` of `nbits` bits: its
bytes stand at `pc` in the program the host presents, and a START has been accepted (`status` RUNNING,
`err` NONE) with no further command of the host to come.  It stands for the host's presenting a
program and giving START, which is how a program comes to run from `State.reset` (log 5). -/
def State.withFetchWord (s : State) (nbits w : Nat) : State :=
  ((s.withProgram (placeBytes s.program s.pc.toNat (tableBytes nbits w))).withStatus
    .running errNone).withHost []

end Sys2Proof.Machine
end

