-- ==== Sys2Proof/Safety.lean ====
section
/-! DEFINITION. The terms the claims use: what holds of every state a run reaches, and which errors an
instruction can raise. -/

namespace Sys2Proof.Machine

/-- The depth is within the capacity: `d <= STACK_CAP` (10_state.md R15). -/
def State.stackFits (s : State) : Bool := s.config.stackCap.allows s.depth

/-- The stack has room for one more value (10_state.md R28). -/
def State.hasRoom (s : State) : Bool := s.config.stackCap.allows (s.depth + 1)

/-- `err` holds an error exactly when `status` is HALTED_ERR (10_state.md R24). -/
def State.errMatchesStatus (s : State) : Bool :=
  decide (s.err ≠ errNone) == decide (s.status = .haltedErr)

/-- What holds of every state that a run from reset reaches. -/
structure State.Inv (s : State) : Prop where
  /-- The parameters are legal (00_scope.md R7, R8). -/
  configWf : s.config.wf = true
  /-- The data memory is in canonical form, with addresses `0 .. 255` only (10_state.md R17). -/
  memWf : s.mem.wf
  /-- The depth is within the capacity (10_state.md R15). -/
  stackFits : s.stackFits = true
  /-- The program's length is allowed (00_scope.md R8). -/
  programAdmitted : s.config.admits s.program = true
  /-- `err` is nonzero exactly when the CORE has halted on an error (10_state.md R24). -/
  errMatchesStatus : s.errMatchesStatus = true
  /-- Codes 9 to 15 are never written (10_state.md R23). -/
  errCode : s.err ≤ 8

/-- The program counter is within the program: `pc <= L` (10_state.md R20). -/
def State.pcWithinProgram (s : State) : Prop := s.pc.toNat ≤ s.progLen

/-- The host keeps the program as it is at this step boundary (70_reset_and_hazards.md R103). -/
def State.hostKeepsProgram (s : State) : Prop :=
  ∀ p, s.pendingCommand = some (.present p) → p = s.program

/-- The data address and the value that the next step stores, if that step is a Store that passes its
bounds check (42_load_store.md R71). -/
def State.storesNext (s : State) : Option (Nat × Word) :=
  if s.pendingCommand = none ∧ s.status = .running ∧ fetch s = .ok .store then
    match s.stack.reverse with
    | addr :: value :: _ => if inBounds addr then some (dataAddress addr, value) else none
    | _ => none
  else none

/-- `ReachedKeeping a s t`: some number of steps lead from `s` to `t`, and none of them stores to data
address `a` or is a RESET. -/
inductive ReachedKeeping (a : Nat) : State → State → Prop where
  | here (s : State) : ReachedKeeping a s s
  | more (s t u : State) : step s = .next t → s.pendingCommand ≠ some .reset →
      (∀ v, s.storesNext ≠ some (a, v)) → ReachedKeeping a t u → ReachedKeeping a s u

/-- The error kinds each instruction can raise once it is decoded, in the order of its checks
(60_exceptions.md R83). -/
def raisable : Instr → List ErrorKind
  | .push _ => [.invalidProgramCounter, .stackOverflow]
  | .pop => [.stackUnderflow]
  | .add | .sub | .mul => [.stackUnderflow]
  | .store | .load => [.stackUnderflow, .memoryOutOfBounds]
  | .jmp | .jumpIf => [.stackUnderflow, .invalidJumpTarget]
  | .dup => [.stackIsEmpty, .stackOverflow]
  | .swap | .rot => [.notEnoughItemsInStack]
  | .overNos => [.notEnoughItemsInStack, .stackOverflow]
  | .pick => [.stackUnderflow, .notEnoughItemsInStack]

/-- How many values an instruction has popped when it has passed all its pops; what an error finds
popped is this many, or the whole stack where it holds fewer (60_exceptions.md R86). -/
def popCount : Instr → Nat
  | .push _ | .dup | .swap | .rot | .overNos => 0
  | .pop | .load | .jmp | .pick => 1
  | .add | .sub | .mul | .store | .jumpIf => 2

/-- What the ALU dispatch engine does for an instruction `i` of opcode byte `b` whose operation is `f`
(41_arithmetic.md R66): it pops `b` and `a`, pushes the wrapped exact result and advances by one; a
stack of one value loses that value to StackUnderflow, an empty stack raises it unchanged. -/
def AluLaw (i : Instr) (b : Byte) (f : Int → Int → Int) : Prop :=
  (∀ rest, decode (b :: rest) = .ok (i, rest)) ∧
  (∀ (s : State) (r : List Word) (x y : Word), s.stackFits = true → s.stack = r ++ [x, y] →
    exec i s = .next { s with stack := r ++ [wrap32 (f x.toInt y.toInt)], pc := s.pc + 1 }) ∧
  (∀ (s : State) (x : Word), s.stack = [x] →
    exec i s = .next { s with stack := [], status := .haltedErr, err := 1 }) ∧
  (∀ s : State, s.stack = [] → exec i s = .next { s with status := .haltedErr, err := 1 })

end Sys2Proof.Machine
end

