-- ==== Sys2Proof/Certificates/Slice0/Obligations.lean ====
section
/-! DEFINITION. The statements for the provers.  Error codes are written as the numbers of
60_exceptions.md R82, opcode bytes as those of 30_encoding.md R52. -/

open Sys2Proof Sys2Proof.Machine

/-! ### Decoding and encoding -/

/-- O1. Words written out from 30_encoding.md R49, R51, R52 decode to their instructions. -/
def Obligations.WrittenOutBytesDecode : Prop :=
  decode [0b00000001#8, 0b11111111#8] = .ok (.push 255, []) ∧
  decode [0b00000011#8, 0b00000010#8] = .ok (.add, [0b00000010#8]) ∧
  decode [0b00000101#8] = .ok (.store, []) ∧
  decode [0b00001000#8] = .ok (.jumpIf, []) ∧
  decode [0b00010000#8] = .ok (.swap, []) ∧
  decode [0b00010100#8] = .ok (.mul, []) ∧
  decodeTableWord 16 0x0501 = some (.push 5) ∧
  decodeTableWord 8 0x13 = some .pick

/-- O2. The invalid opcode bytes are the 242 of 30_encoding.md R53, no more and no fewer. -/
def Obligations.InvalidOpcodeBytesAreTheOther242 : Prop :=
  (∀ b : Byte, decodeOpcode b = none ↔ b = 0x00 ∨ (0x0A ≤ b ∧ b ≤ 0x0F) ∨ 0x15 ≤ b) ∧
  ((List.range 256).filter fun n => decodeOpcode (BitVec.ofNat 8 n) = none).length = 242

/-- O3. Decode and encode agree, in both directions: a list of bytes decodes to an instruction exactly
when it begins with that instruction's bytes, so no bit is dropped and each encoding has one meaning. -/
def Obligations.DecodeIffBytesBeginWithEncoding : Prop :=
  ∀ (bs : List Byte) (i : Instr) (rest : List Byte),
    decode bs = .ok (i, rest) ↔ bs = encode i ++ rest

/-- O4. The decoder rejects by name, and only what the spec says (30_encoding.md R54, 40_stack.md
R64). -/
def Obligations.DecodeRejectsByName : Prop :=
  ∀ bs : List Byte,
    (decode bs = .error .endOfBytes ↔ bs = []) ∧
    (decode bs = .error .operandMissing ↔ bs = [0x01]) ∧
    (∀ b, decode bs = .error (.invalidOpcode b) ↔ decodeOpcode b = none ∧ bs.head? = some b)

/-- O5. The length of an instruction follows from its opcode byte alone, and an invalid opcode byte has
no length (30_encoding.md R50). -/
def Obligations.LengthFollowsFromOpcodeByte : Prop :=
  (∀ (b : Byte) (bs : List Byte) (i : Instr) (rest : List Byte), decode (b :: bs) = .ok (i, rest) →
    (b :: bs).length = rest.length + (if b = 0x01 then 2 else 1)) ∧
  (∀ (b : Byte) (bs : List Byte), decodeOpcode b = none →
    decode (b :: bs) = .error (.invalidOpcode b))

/-- O6. Straight-line code: at the end of any sequence of instructions laid out one after the other, a
fetch gives the instruction that comes next (30_encoding.md R48, R57). -/
def Obligations.FetchFollowsStraightLineCode : Prop :=
  ∀ (s : State) (before : List Instr) (i : Instr) (rest : List Byte),
    s.program = assemble (before ++ [i]) ++ rest → s.pc.toNat = (assemble before).length →
    fetch s = .ok i

/-! ### Primitives -/

/-- O7. `push` (10_state.md R28). -/
def Obligations.PushPrimitive : Prop :=
  ∀ (v : Word) (s : State) (next : State → Result),
    (s.config.stackCap = .finite s.depth → push v s next = raise .stackOverflow s) ∧
    (s.config.stackCap ≠ .finite s.depth →
      push v s next = next { s with stack := s.stack ++ [v] })

/-- O8. `pop` (10_state.md R29). -/
def Obligations.PopPrimitive : Prop :=
  ∀ (s : State) (next : Word → State → Result),
    (s.stack = [] → pop s next = raise .stackUnderflow s) ∧
    (∀ r v, s.stack = r ++ [v] → pop s next = next v { s with stack := r })

/-- O9. `require` (10_state.md R30). -/
def Obligations.RequirePrimitive : Prop :=
  ∀ (k : Nat) (e : ErrorKind) (s : State) (next : k ≤ s.depth → Result),
    (s.stack.length < k → require k e s next = raise e s) ∧
    (∀ h : k ≤ s.depth, require k e s next = next h)

/-- O10. The error codes of 60_exceptions.md R82, and an error records nothing beyond its code. -/
def Obligations.ErrorCodesAndNothingElseRecorded : Prop :=
  errNone = 0 ∧
  ErrorKind.stackUnderflow.code = 1 ∧ ErrorKind.stackIsEmpty.code = 2 ∧
  ErrorKind.notEnoughItemsInStack.code = 3 ∧ ErrorKind.memoryOutOfBounds.code = 4 ∧
  ErrorKind.invalidJumpTarget.code = 5 ∧ ErrorKind.invalidOpcode.code = 6 ∧
  ErrorKind.invalidProgramCounter.code = 7 ∧ ErrorKind.stackOverflow.code = 8 ∧
  ∀ (e : ErrorKind) (s : State), raise e s = .next { s with status := .haltedErr, err := e.code }

/-- O11. `wrap32` is the reduction modulo `2^32` into `i32`, and the only one (00_scope.md R10). -/
def Obligations.WrapIsTheUniqueResidue : Prop :=
  ∀ (x : Int) (w : Word), w = wrap32 x ↔ (w.toInt - x) % 2 ^ 32 = 0

/-! ### The instructions -/

/-- O12. Push (40_stack.md R64).  The operand check comes before the capacity check; a Push that is the
last byte of the program raises InvalidProgramCounter in the step that decodes it; a Push at `L - 2`
completes, and the step after it halts HALTED_OK. -/
def Obligations.PushInstruction : Prop :=
  (∀ (imm8 : Byte) (rest : List Byte), decode (0x01 :: imm8 :: rest) = .ok (.push imm8, rest)) ∧
  (∀ imm8 : Byte, (zext32 imm8).toInt = imm8.toNat) ∧
  (∀ (imm8 : Byte) (s : State), s.pc.toNat + 1 < s.program.length →
    (s.hasRoom = true → exec (.push imm8) s =
      .next { s with stack := s.stack ++ [zext32 imm8], pc := s.pc + 2 }) ∧
    (s.config.stackCap = .finite s.depth → exec (.push imm8) s =
      .next { s with status := .haltedErr, err := 8 })) ∧
  (∀ (imm8 : Byte) (s : State), s.program.length ≤ s.pc.toNat + 1 → exec (.push imm8) s =
    .next { s with status := .haltedErr, err := 7 }) ∧
  (∀ s : State, s.pendingCommand = none → s.status = .running →
    s.program.drop s.pc.toNat = [0x01] → step s =
      .next { s with status := .haltedErr, err := 7, host := s.host.tail }) ∧
  (∀ (imm8 : Byte) (rest : List Byte) (s : State), s.host = [] → s.status = .running →
    s.hasRoom = true → s.program.drop s.pc.toNat = 0x01 :: imm8 :: rest →
    step s = .next { s with stack := s.stack ++ [zext32 imm8], pc := s.pc + 2 } ∧
    (rest = [] → s.program.length < 2 ^ 32 →
      step { s with stack := s.stack ++ [zext32 imm8], pc := s.pc + 2 } =
        .next { s with stack := s.stack ++ [zext32 imm8], pc := s.pc + 2, status := .haltedOk }))

/-- O13. Pop (40_stack.md R65). -/
def Obligations.PopInstruction : Prop :=
  (∀ rest, decode (0x02 :: rest) = .ok (.pop, rest)) ∧
  (∀ (s : State) (r : List Word) (x : Word), s.stack = r ++ [x] →
    exec .pop s = .next { s with stack := r, pc := s.pc + 1 }) ∧
  (∀ s : State, s.stack = [] → exec .pop s = .next { s with status := .haltedErr, err := 1 })

/-- O14. Add, Sub and Mul through the ALU dispatch engine (41_arithmetic.md R66, R68 to R70): the right
operand is the top, the exact result is wrapped, nothing overflows the stack, and a stack of one value
loses it.  `AluLaw` (Safety.lean) spells out the clauses. -/
def Obligations.ArithmeticInstructions : Prop :=
  AluLaw .add 0x03 (fun a b => a + b) ∧
  AluLaw .sub 0x04 (fun a b => a - b) ∧
  AluLaw .mul 0x14 (fun a b => a * b)

/-- O15. Store (42_load_store.md R71): the word stored to reads as the value, every other word as
before. -/
def Obligations.StoreInstruction : Prop :=
  (∀ rest, decode (0x05 :: rest) = .ok (.store, rest)) ∧
  (∀ (s : State) (r : List Word) (value addr : Word), s.stack = r ++ [value, addr] →
    (0 ≤ addr.toInt → addr.toInt < 256 → s.mem.wf →
      ∃ mem : Memory, exec .store s = .next { s with stack := r, mem := mem, pc := s.pc + 1 } ∧
        mem.wf ∧
        ∀ a : Nat, mem.read a = if (a : Int) = addr.toInt then value else s.mem.read a) ∧
    (addr.toInt < 0 ∨ 256 ≤ addr.toInt →
      exec .store s = .next { s with stack := r, status := .haltedErr, err := 4 })) ∧
  (∀ (s : State) (x : Word), s.stack = [x] →
    exec .store s = .next { s with stack := [], status := .haltedErr, err := 1 }) ∧
  (∀ s : State, s.stack = [] → exec .store s = .next { s with status := .haltedErr, err := 1 })

/-- O16. Load (42_load_store.md R72).  O32 says what the word holds. -/
def Obligations.LoadInstruction : Prop :=
  (∀ rest, decode (0x06 :: rest) = .ok (.load, rest)) ∧
  (∀ (s : State) (r : List Word) (addr : Word), s.stack = r ++ [addr] → s.stackFits = true →
    (0 ≤ addr.toInt → addr.toInt < 256 →
      exec .load s =
        .next { s with stack := r ++ [s.mem.read addr.toInt.toNat], pc := s.pc + 1 }) ∧
    (addr.toInt < 0 ∨ 256 ≤ addr.toInt →
      exec .load s = .next { s with stack := r, status := .haltedErr, err := 4 })) ∧
  (∀ s : State, s.stack = [] → exec .load s = .next { s with status := .haltedErr, err := 1 })

/-- O17. Jmp, with the jump-target check (43_control.md R73, R74). -/
def Obligations.JmpInstruction : Prop :=
  (∀ rest, decode (0x07 :: rest) = .ok (.jmp, rest)) ∧
  (∀ (s : State) (r : List Word) (target : Word), s.stack = r ++ [target] →
    (0 ≤ target.toInt → target.toInt < s.program.length →
      ∃ pc : BitVec 32, exec .jmp s = .next { s with stack := r, pc := pc } ∧
        (pc.toNat : Int) = target.toInt) ∧
    (target.toInt < 0 ∨ s.program.length ≤ target.toInt →
      exec .jmp s = .next { s with stack := r, status := .haltedErr, err := 5 })) ∧
  (∀ s : State, s.stack = [] → exec .jmp s = .next { s with status := .haltedErr, err := 1 })

/-- O18. JumpIf (43_control.md R75): the condition is the top, the target is checked whether or not
the branch is taken, any nonzero condition takes it. -/
def Obligations.JumpIfInstruction : Prop :=
  (∀ rest, decode (0x08 :: rest) = .ok (.jumpIf, rest)) ∧
  (∀ (s : State) (r : List Word) (target cond : Word), s.stack = r ++ [target, cond] →
    (0 ≤ target.toInt → target.toInt < s.program.length →
      ∃ pc : BitVec 32, exec .jumpIf s = .next { s with stack := r, pc := pc } ∧
        (cond ≠ 0 → (pc.toNat : Int) = target.toInt) ∧ (cond = 0 → pc = s.pc + 1)) ∧
    (target.toInt < 0 ∨ s.program.length ≤ target.toInt →
      exec .jumpIf s = .next { s with stack := r, status := .haltedErr, err := 5 })) ∧
  (∀ (s : State) (x : Word), s.stack = [x] →
    exec .jumpIf s = .next { s with stack := [], status := .haltedErr, err := 1 }) ∧
  (∀ s : State, s.stack = [] → exec .jumpIf s = .next { s with status := .haltedErr, err := 1 })

/-- O19. Dup (44_stack_manipulation.md R76). -/
def Obligations.DupInstruction : Prop :=
  (∀ rest, decode (0x09 :: rest) = .ok (.dup, rest)) ∧
  (∀ (s : State) (r : List Word) (x : Word), s.stack = r ++ [x] →
    (s.hasRoom = true →
      exec .dup s = .next { s with stack := r ++ [x, x], pc := s.pc + 1 }) ∧
    (s.config.stackCap = .finite s.depth →
      exec .dup s = .next { s with status := .haltedErr, err := 8 })) ∧
  (∀ s : State, s.stack = [] → exec .dup s = .next { s with status := .haltedErr, err := 2 })

/-- O20. Swap (44_stack_manipulation.md R77). -/
def Obligations.SwapInstruction : Prop :=
  (∀ rest, decode (0x10 :: rest) = .ok (.swap, rest)) ∧
  (∀ (s : State) (r : List Word) (a b : Word), s.stack = r ++ [a, b] →
    exec .swap s = .next { s with stack := r ++ [b, a], pc := s.pc + 1 }) ∧
  (∀ s : State, s.stack.length < 2 →
    exec .swap s = .next { s with status := .haltedErr, err := 3 })

/-- O21. Rot (44_stack_manipulation.md R78), and three Rots in a row give back the stack. -/
def Obligations.RotInstruction : Prop :=
  (∀ rest, decode (0x11 :: rest) = .ok (.rot, rest)) ∧
  (∀ (s : State) (r : List Word) (a b c : Word), s.stack = r ++ [a, b, c] →
    exec .rot s = .next { s with stack := r ++ [b, c, a], pc := s.pc + 1 }) ∧
  (∀ s : State, s.stack.length < 3 →
    exec .rot s = .next { s with status := .haltedErr, err := 3 }) ∧
  (∀ s : State, 3 ≤ s.stack.length → ∃ t u v, exec .rot s = .next t ∧ exec .rot t = .next u ∧
    exec .rot u = .next v ∧ v.stack = s.stack)

/-- O22. Over (44_stack_manipulation.md R79). -/
def Obligations.OverInstruction : Prop :=
  (∀ rest, decode (0x12 :: rest) = .ok (.overNos, rest)) ∧
  (∀ (s : State) (r : List Word) (a b : Word), s.stack = r ++ [a, b] →
    (s.hasRoom = true →
      exec .overNos s = .next { s with stack := r ++ [a, b, a], pc := s.pc + 1 }) ∧
    (s.config.stackCap = .finite s.depth →
      exec .overNos s = .next { s with status := .haltedErr, err := 8 })) ∧
  (∀ s : State, s.stack.length < 2 →
    exec .overNos s = .next { s with status := .haltedErr, err := 3 })

/-- O23. Pick (44_stack_manipulation.md R80): of the `d' = r.length` values left by the pop of `n` it
copies `r[d' - n]`, for `1 <= n < d'` only. -/
def Obligations.PickInstruction : Prop :=
  (∀ rest, decode (0x13 :: rest) = .ok (.pick, rest)) ∧
  (∀ (s : State) (r : List Word) (n : Word), s.stack = r ++ [n] → s.stackFits = true →
    (1 ≤ n.toInt → n.toInt < r.length →
      ∃ x, r[r.length - n.toInt.toNat]? = some x ∧
        exec .pick s = .next { s with stack := r ++ [x], pc := s.pc + 1 }) ∧
    (n.toInt < 1 ∨ r.length ≤ n.toInt →
      exec .pick s = .next { s with stack := r, status := .haltedErr, err := 3 })) ∧
  (∀ s : State, s.stack = [] → exec .pick s = .next { s with status := .haltedErr, err := 1 })

/-! ### Frames and the rules of all instructions -/

/-- O24. Every instruction that is no Store leaves every word of memory as it was, completing or not;
and no instruction changes the program, the host's schedule or the parameters (10_state.md R17,
R25). -/
def Obligations.OnlyStoreChangesMemory : Prop :=
  ∀ (i : Instr) (s t : State), exec i s = .next t →
    (i ≠ .store → ∀ a : Nat, t.mem.read a = s.mem.read a) ∧
    t.program = s.program ∧ t.host = s.host ∧ t.config = s.config

/-- O25. The frame of Store: outside the word its popped address names every word reads as before, and
a Store that raises an error changes no word. -/
def Obligations.StoreChangesOneWord : Prop :=
  ∀ s t : State, s.mem.wf → exec .store s = .next t →
    (∀ addr, s.stack.getLast? = some addr →
      ∀ a : Nat, a ≠ dataAddress addr → t.mem.read a = s.mem.read a) ∧
    (t.pc = s.pc → ∀ a : Nat, t.mem.read a = s.mem.read a)

/-- O26. On a stack within the capacity every instruction answers a next state: either it completes,
with `status` and `err` as they were, or it raises one of the errors of its row of 60_exceptions.md R83,
and then the state is the old one with the operands it popped gone (R86), `pc` and memory as they were
(R85), `err` and `status` written (R84). -/
def Obligations.CompletesOrRaisesPrecisely : Prop :=
  ∀ (i : Instr) (s : State), s.stackFits = true → ∃ t, exec i s = .next t ∧
    ((t.status = s.status ∧ t.err = s.err) ∨
      ∃ e ∈ raisable i, t =
        { s with stack := s.stack.take (s.stack.length - popCount i),
                 status := .haltedErr, err := e.code })

/-- O27. `pc` after each instruction and outcome, the table of 30_encoding.md R58. -/
def Obligations.PcAfterInstruction : Prop :=
  (∀ (i : Instr) (s t : State), s.status = .running → exec i s = .next t →
    (t.status = .running ∧
      match i with
      | .push _ => t.pc = s.pc + 2
      | .jmp => ∃ r target, s.stack = r ++ [target] ∧ t.pc = target
      | .jumpIf => ∃ r target cond, s.stack = r ++ [target, cond] ∧
          t.pc = if cond = 0 then s.pc + 1 else target
      | .pop | .add | .sub | .mul | .store | .load | .dup | .swap | .rot | .overNos
      | .pick => t.pc = s.pc + 1) ∨
    (t.status = .haltedErr ∧ t.pc = s.pc)) ∧
  (∀ (e : DecodeError) (s t : State), noInstruction e s = .next t → t.pc = s.pc)

/-- O28. With `STACK_CAP = INF` no step of a running CORE ends in StackOverflow (10_state.md R28). -/
def Obligations.NoOverflowWithoutCapacity : Prop :=
  ∀ s t : State, s.config.stackCap = .inf → s.pendingCommand = none → s.status = .running →
    s.err ≠ 8 → step s = .next t → t.err ≠ 8

/-- O29. A finite capacity only adds StackOverflow: what an instruction does otherwise is what it does
with `STACK_CAP = INF`. -/
def Obligations.FiniteCapacityRefinesReference : Prop :=
  ∀ (i : Instr) (s t : State), exec i s = .next t →
    (t.status = .haltedErr ∧ t.err = 8 ∧ ∃ n, s.config.stackCap = .finite n) ∨
    exec i { s with config := { s.config with stackCap := .inf } } =
      .next { t with config := { s.config with stackCap := .inf } }

/-- O30. Instructions name stack positions relative to the top (10_state.md R16): one that completes
does the same, and leaves the values below alone, on a stack with more values under it. -/
def Obligations.StackBelowOperandsIsIrrelevant : Prop :=
  ∀ (i : Instr) (s t : State) (base : List Word), s.config.stackCap = .inf →
    s.status = .running → exec i s = .next t → t.status = .running →
    exec i { s with stack := base ++ s.stack } = .next { t with stack := base ++ t.stack }

/-- O31. Only Load reads data memory (10_state.md R17): what any other instruction does to the stack,
`pc`, `status` and `err` does not depend on what memory holds. -/
def Obligations.OnlyLoadReadsMemory : Prop :=
  ∀ (i : Instr) (s t : State) (mem : Memory), i ≠ .load → exec i s = .next t →
    ∃ mem', exec i { s with mem := mem } = .next { t with mem := mem' }

/-- O32. A Load of `a` gives the value of the last Store to `a` before it in execution order, or 0 if
there was none since RESET, however many steps lie in between (20_memory.md R45 (a)). -/
def Obligations.LoadReturnsLastStore : Prop :=
  ∀ (s t u : State) (a : Nat) (v : Word), s.mem.wf →
    (s.storesNext = some (a, v) ∨ s.pendingCommand = some .reset ∧ v = 0) →
    step s = .next t → ReachedKeeping a t u →
    ∀ (r : List Word) (addr : Word), u.stack = r ++ [addr] → addr.toInt = a → a < 256 →
      u.stackFits = true →
      exec .load u = .next { u with stack := r ++ [v], pc := u.pc + 1 }

/-- O33. A memory in canonical form is determined by what it reads as, so equal memories are equal
data.  The form is the model's choice (log 9). -/
def Obligations.CanonicalMemoryIsDeterminedByReads : Prop :=
  ∀ m m' : Memory, m.wf → m'.wf → (∀ a : Nat, m.read a = m'.read a) → m = m'

/-! ### The execute loop -/

/-- O34. One step of the execute loop (30_encoding.md R60): a step runs the decoded instruction; at
`pc >= L` it halts HALTED_OK with nothing else changed; at a byte that is no opcode it raises
InvalidOpcode; O12 has the Push that is the last byte.  `afterBoundary` only uses up this boundary's
entry of the host's schedule, which is the model's choice (log 3). -/
def Obligations.StepRunsDecodedInstruction : Prop :=
  (∀ s : State, s.afterBoundary = { s with host := s.host.tail }) ∧
  (∀ s : State, s.pendingCommand = none → s.status = .running →
    (∀ i rest, decode (s.program.drop s.pc.toNat) = .ok (i, rest) →
      step s = exec i s.afterBoundary) ∧
    (s.program.length ≤ s.pc.toNat →
      step s = .next { s.afterBoundary with status := .haltedOk }) ∧
    (∀ b, s.program[s.pc.toNat]? = some b → decodeOpcode b = none →
      step s = .next { s.afterBoundary with status := .haltedErr, err := 6 }))

/-- O35. The decoder's tags are those of 30_encoding.md R52, and any other byte at `pc` raises
InvalidOpcode with nothing else changed and `pc` at the byte, whatever the stack holds (R54). -/
def Obligations.DecoderIsTotalAndRaisesInvalidOpcode : Prop :=
  (∀ (b : Byte) (o : Opcode), decodeOpcode b = some o ↔ (b, o) ∈
    [((0x01 : Byte), Opcode.push), (0x02, .pop), (0x03, .add), (0x04, .sub), (0x05, .store),
     (0x06, .load), (0x07, .jmp), (0x08, .jumpIf), (0x09, .dup), (0x10, .swap), (0x11, .rot),
     (0x12, .overNos), (0x13, .pick), (0x14, .mul)]) ∧
  (∀ (s : State) (b : Byte) (rest : List Byte), s.host = [] → s.status = .running →
    s.program.drop s.pc.toNat = b :: rest → decodeOpcode b = none →
      step s = .next { s with status := .haltedErr, err := 6 })

/-- O36. A CORE that is not RUNNING takes no step: all its state survives (60_exceptions.md R97).
That such a step of the model answers a next state is the model's choice (log 4). -/
def Obligations.NoStepUnlessRunning : Prop :=
  ∀ s : State, s.pendingCommand = none → s.status ≠ .running →
    step s = .next { s with host := s.host.tail }

/-- O37. Every step answers a next state, unless the host presents a program that is too long or
changes the program during a run (log 6, log 7); so a run never ends but by HALTED_OK or an error
(70_reset_and_hazards.md R110). -/
def Obligations.StepAnswersNextState : Prop :=
  ∀ s : State, s.config.admits s.program = true → s.hostKeepsProgram → ∃ t, step s = .next t

/-- O38. The transitions of `status` (10_state.md R22); no other exists.  That presenting a program is
a step of its own is the model's choice (log 3). -/
def Obligations.StatusTransitions : Prop :=
  ∀ s t : State, step s = .next t →
    match s.pendingCommand with
    | some .reset => t.status = .idle
    | some .start => t.status = .running
    | some (.present _) => t.status = s.status
    | none =>
      if s.status = .running then
        if s.program.length ≤ s.pc.toNat then t.status = .haltedOk
        else t.status = .running ∨ (t.status = .haltedErr ∧ ∃ e : ErrorKind, t.err = e.code)
      else t.status = s.status

/-- O39. `err` is written by a halt on an error and by START, and put back by RESET; nothing else
writes it (10_state.md R24). -/
def Obligations.ErrIsWrittenInTwoPlaces : Prop :=
  ∀ s t : State, step s = .next t → t.err ≠ s.err →
    (s.pendingCommand = none ∧ s.status = .running ∧ t.status = .haltedErr ∧
      ∃ e : ErrorKind, t.err = e.code) ∨
    ((s.pendingCommand = some .start ∨ s.pendingCommand = some .reset) ∧ t.err = 0)

/-- O40. The invariant holds after reset.  The parameters and the program there are the model's choice
(log 1, log 2). -/
def Obligations.ResetHasInvariant : Prop := State.reset.Inv

/-- O41. Every step keeps the invariant: legal parameters, canonical memory within `0 .. 255`, depth
within the capacity, program length allowed, `err` nonzero exactly when HALTED_ERR, codes 0 to 8. -/
def Obligations.StepKeepsInvariant : Prop :=
  ∀ s t : State, s.Inv → step s = .next t → t.Inv

/-- O42. With the program kept, `pc <= L` after every step, the program is what it was, and an
instruction that does not jump moves `pc` up by its length: `pc` never wraps (10_state.md R20). -/
def Obligations.PcStaysWithinProgram : Prop :=
  ∀ s t : State, s.Inv → s.hostKeepsProgram → s.pcWithinProgram → step s = .next t →
    t.pcWithinProgram ∧ t.program = s.program ∧
    (∀ i rest, s.pendingCommand = none → s.status = .running → t.status = .running →
      i ≠ .jmp → i ≠ .jumpIf → decode (s.program.drop s.pc.toNat) = .ok (i, rest) →
      t.pc.toNat = s.pc.toNat + (encode i).length)

/-! ### The host

The host's commands come one at a step boundary, as entries of the schedule `State.host`: the model's
form of an input (log 3). -/

/-- O43. RESET (70_reset_and_hazards.md R98), whatever `status` is; power-on gives the same state. -/
def Obligations.ResetCommand : Prop :=
  (∀ s : State, s.pendingCommand = some .reset →
    ∃ t, step s = .next t ∧ t.stack = [] ∧ (∀ a : Nat, t.mem.read a = 0) ∧ t.pc = 0 ∧
      t.status = .idle ∧ t.err = 0 ∧ t.program = s.program) ∧
  (State.reset.stack = [] ∧ (∀ a : Nat, State.reset.mem.read a = 0) ∧ State.reset.pc = 0 ∧
    State.reset.status = .idle ∧ State.reset.err = 0)

/-- O44. START (70_reset_and_hazards.md R100): accepted when not RUNNING, with `S`, `M` and `pc` as
they are, ignored while RUNNING; one at `pc >= L` halts HALTED_OK at its first step. -/
def Obligations.StartCommand : Prop :=
  ∀ s : State, s.pendingCommand = some .start →
    (s.status ≠ .running →
      step s = .next { s with status := .running, err := 0, host := s.host.tail }) ∧
    (s.status = .running → step s = .next { s with host := s.host.tail }) ∧
    (s.program.length ≤ s.pc.toNat → s.host.tail = [] → ∀ t, step s = .next t →
      ∃ u, step t = .next u ∧ u.status = .haltedOk ∧ u.stack = s.stack ∧ u.mem = s.mem ∧
        u.pc = s.pc)

/-- O45. Resuming after an error runs the failing instruction again, on the stack as the error left it
(60_exceptions.md R90). -/
def Obligations.ResumeRunsFailingInstructionAgain : Prop :=
  ∀ (s t : State) (i : Instr) (rest : List Byte),
    s.pendingCommand = none → s.status = .running →
    decode (s.program.drop s.pc.toNat) = .ok (i, rest) →
    step s = .next t → t.status = .haltedErr → t.host = [some .start] →
    ∃ u, step t = .next u ∧ u.stack = t.stack ∧ u.mem = t.mem ∧ u.err = 0 ∧ step u = exec i u

/-- O46. The host's presenting a program: taken when it is no longer than PROG_LEN_MAX and does not
change the program of a run, and refused by name else.  That these two refuse, and where, is the
model's choice (log 6, log 7). -/
def Obligations.PresentProgramCommand : Prop :=
  ∀ (s : State) (p : List Byte), s.pendingCommand = some (.present p) →
    (p.length ≤ s.config.progLenMax → (s.status = .running → p = s.program) →
      step s = .next { s with program := p, host := s.host.tail }) ∧
    (s.status = .running → p ≠ s.program → step s = .refused .programChangedWhileRunning) ∧
    (s.config.progLenMax < p.length → (s.status = .running → p = s.program) →
      step s = .refused .programTooLong)

/-- O47. The read-back ports (10_state.md R26, R27): STATUS at any time, the others while not
RUNNING. -/
def Obligations.ReadBackWhileNotRunning : Prop :=
  (∀ s : State, readStatus s = match s.status with
    | .idle => 0 | .running => 1 | .haltedOk => 2 | .haltedErr => 3) ∧
  (∀ (n : Nat) (s : State), s.status ≠ .running →
    readErr n s = s.err ∧ readPc n s = s.pc ∧ readDepth n s = s.stack.length ∧
    (∀ idx v, s.stack[idx]? = some v → readStkData n idx s = v) ∧
    (∀ idx : BitVec 8, readMemData n idx s = s.mem.read idx.toNat))

/-- O48. The DEPTH port of a finite capacity `c` has `ceil(log2(c + 1))` bits (10_state.md R26), and
what it reads as fits, while RUNNING too.  That a read while RUNNING fits the port is the model's choice
(log 8): R27 gives such a read no defined value. -/
def Obligations.DepthPortFits : Prop :=
  ∀ (c n : Nat) (s : State), 0 < c → s.config.stackCap = .finite c → s.stackFits = true →
    ∃ w, depthPortWidth s.config.stackCap = some w ∧ c + 1 ≤ 2 ^ w ∧ 2 ^ (w - 1) < c + 1 ∧
      readDepth n s < 2 ^ w

/-- O49. The instruction word placed for the very next step is what that step runs (log 5). -/
def Obligations.StepRunsPlacedWord : Prop :=
  ∀ (s : State) (nbits w : Nat) (i : Instr), decodeTableWord nbits w = some i →
    step (s.withFetchWord nbits w) = exec i (s.withFetchWord nbits w)

/-- O50. The memory address checker (20_memory.md R36, R37) is a signed comparison that neither wraps,
masks nor truncates: no two values in bounds name one word, and 256, 257, -1 and -2^31 name none. -/
def Obligations.AddressCheckerNeverWraps : Prop :=
  (∀ a : Word, inBounds a = true ↔ 0 ≤ a.toInt ∧ a.toInt < 256) ∧
  (∀ a : Word, inBounds a = true → (dataAddress a : Int) = a.toInt) ∧
  (∀ a b : Word, inBounds a = true → inBounds b = true → dataAddress a = dataAddress b → a = b) ∧
  inBounds 256 = false ∧ inBounds 257 = false ∧ inBounds (-1) = false ∧
  inBounds (BitVec.intMin 32) = false

/-- O51. How a program comes to run: RESET, the program, START (70_reset_and_hazards.md R101, R102), at
three step boundaries of the model (log 3, log 5), from whatever state. -/
def Obligations.ResetPresentStartBoots : Prop :=
  ∀ (s : State) (p : List Byte),
    s.host = [some .reset, some (.present p), some .start] → p.length ≤ s.config.progLenMax →
    ∃ t u v, step s = .next t ∧ step t = .next u ∧ step u = .next v ∧
      v = { State.reset with program := p, config := s.config, status := .running }
end

