-- ==== Sys2Proof/Laws/State.lean ====
section
/-! SUPPORT. One lemma per field per update of the state, true by unfolding, so that no proof unfolds a
record update. -/

namespace Sys2Proof.Machine

variable (s : State)

@[simp] theorem State.withStack_stack (x : List Word) : (s.withStack x).stack = x := rfl
@[simp] theorem State.withStack_mem (x : List Word) : (s.withStack x).mem = s.mem := rfl
@[simp] theorem State.withStack_pc (x : List Word) : (s.withStack x).pc = s.pc := rfl
@[simp] theorem State.withStack_status (x : List Word) : (s.withStack x).status = s.status := rfl
@[simp] theorem State.withStack_err (x : List Word) : (s.withStack x).err = s.err := rfl
@[simp] theorem State.withStack_program (x : List Word) : (s.withStack x).program = s.program := rfl
@[simp] theorem State.withStack_host (x : List Word) : (s.withStack x).host = s.host := rfl
@[simp] theorem State.withStack_config (x : List Word) : (s.withStack x).config = s.config := rfl

@[simp] theorem State.withMem_stack (x : Memory) : (s.withMem x).stack = s.stack := rfl
@[simp] theorem State.withMem_mem (x : Memory) : (s.withMem x).mem = x := rfl
@[simp] theorem State.withMem_pc (x : Memory) : (s.withMem x).pc = s.pc := rfl
@[simp] theorem State.withMem_status (x : Memory) : (s.withMem x).status = s.status := rfl
@[simp] theorem State.withMem_err (x : Memory) : (s.withMem x).err = s.err := rfl
@[simp] theorem State.withMem_program (x : Memory) : (s.withMem x).program = s.program := rfl
@[simp] theorem State.withMem_host (x : Memory) : (s.withMem x).host = s.host := rfl
@[simp] theorem State.withMem_config (x : Memory) : (s.withMem x).config = s.config := rfl

@[simp] theorem State.withPc_stack (x : BitVec 32) : (s.withPc x).stack = s.stack := rfl
@[simp] theorem State.withPc_mem (x : BitVec 32) : (s.withPc x).mem = s.mem := rfl
@[simp] theorem State.withPc_pc (x : BitVec 32) : (s.withPc x).pc = x := rfl
@[simp] theorem State.withPc_status (x : BitVec 32) : (s.withPc x).status = s.status := rfl
@[simp] theorem State.withPc_err (x : BitVec 32) : (s.withPc x).err = s.err := rfl
@[simp] theorem State.withPc_program (x : BitVec 32) : (s.withPc x).program = s.program := rfl
@[simp] theorem State.withPc_host (x : BitVec 32) : (s.withPc x).host = s.host := rfl
@[simp] theorem State.withPc_config (x : BitVec 32) : (s.withPc x).config = s.config := rfl

@[simp] theorem State.withStatus_stack (x : Status) (y : BitVec 4) : (s.withStatus x y).stack = s.stack := rfl
@[simp] theorem State.withStatus_mem (x : Status) (y : BitVec 4) : (s.withStatus x y).mem = s.mem := rfl
@[simp] theorem State.withStatus_pc (x : Status) (y : BitVec 4) : (s.withStatus x y).pc = s.pc := rfl
@[simp] theorem State.withStatus_status (x : Status) (y : BitVec 4) : (s.withStatus x y).status = x := rfl
@[simp] theorem State.withStatus_err (x : Status) (y : BitVec 4) : (s.withStatus x y).err = y := rfl
@[simp] theorem State.withStatus_program (x : Status) (y : BitVec 4) : (s.withStatus x y).program = s.program := rfl
@[simp] theorem State.withStatus_host (x : Status) (y : BitVec 4) : (s.withStatus x y).host = s.host := rfl
@[simp] theorem State.withStatus_config (x : Status) (y : BitVec 4) : (s.withStatus x y).config = s.config := rfl

@[simp] theorem State.withProgram_stack (x : List Byte) : (s.withProgram x).stack = s.stack := rfl
@[simp] theorem State.withProgram_mem (x : List Byte) : (s.withProgram x).mem = s.mem := rfl
@[simp] theorem State.withProgram_pc (x : List Byte) : (s.withProgram x).pc = s.pc := rfl
@[simp] theorem State.withProgram_status (x : List Byte) : (s.withProgram x).status = s.status := rfl
@[simp] theorem State.withProgram_err (x : List Byte) : (s.withProgram x).err = s.err := rfl
@[simp] theorem State.withProgram_program (x : List Byte) : (s.withProgram x).program = x := rfl
@[simp] theorem State.withProgram_host (x : List Byte) : (s.withProgram x).host = s.host := rfl
@[simp] theorem State.withProgram_config (x : List Byte) : (s.withProgram x).config = s.config := rfl

@[simp] theorem State.withHost_stack (x : List (Option HostCommand)) : (s.withHost x).stack = s.stack := rfl
@[simp] theorem State.withHost_mem (x : List (Option HostCommand)) : (s.withHost x).mem = s.mem := rfl
@[simp] theorem State.withHost_pc (x : List (Option HostCommand)) : (s.withHost x).pc = s.pc := rfl
@[simp] theorem State.withHost_status (x : List (Option HostCommand)) : (s.withHost x).status = s.status := rfl
@[simp] theorem State.withHost_err (x : List (Option HostCommand)) : (s.withHost x).err = s.err := rfl
@[simp] theorem State.withHost_program (x : List (Option HostCommand)) : (s.withHost x).program = s.program := rfl
@[simp] theorem State.withHost_host (x : List (Option HostCommand)) : (s.withHost x).host = x := rfl
@[simp] theorem State.withHost_config (x : List (Option HostCommand)) : (s.withHost x).config = s.config := rfl

@[simp] theorem State.raised_stack (e : ErrorKind) : (s.raised e).stack = s.stack := rfl
@[simp] theorem State.raised_mem (e : ErrorKind) : (s.raised e).mem = s.mem := rfl
@[simp] theorem State.raised_pc (e : ErrorKind) : (s.raised e).pc = s.pc := rfl
@[simp] theorem State.raised_status (e : ErrorKind) : (s.raised e).status = .haltedErr := rfl
@[simp] theorem State.raised_err (e : ErrorKind) : (s.raised e).err = e.code := rfl
@[simp] theorem State.raised_program (e : ErrorKind) : (s.raised e).program = s.program := rfl
@[simp] theorem State.raised_host (e : ErrorKind) : (s.raised e).host = s.host := rfl
@[simp] theorem State.raised_config (e : ErrorKind) : (s.raised e).config = s.config := rfl

@[simp] theorem State.afterBoundary_stack : s.afterBoundary.stack = s.stack := rfl
@[simp] theorem State.afterBoundary_mem : s.afterBoundary.mem = s.mem := rfl
@[simp] theorem State.afterBoundary_pc : s.afterBoundary.pc = s.pc := rfl
@[simp] theorem State.afterBoundary_status : s.afterBoundary.status = s.status := rfl
@[simp] theorem State.afterBoundary_err : s.afterBoundary.err = s.err := rfl
@[simp] theorem State.afterBoundary_program : s.afterBoundary.program = s.program := rfl
@[simp] theorem State.afterBoundary_host : s.afterBoundary.host = s.host.tail := rfl
@[simp] theorem State.afterBoundary_config : s.afterBoundary.config = s.config := rfl

@[simp] theorem State.withStack_depth (x : List Word) : (s.withStack x).depth = x.length := rfl
@[simp] theorem State.withMem_depth (x : Memory) : (s.withMem x).depth = s.depth := rfl
@[simp] theorem State.withPc_depth (x : BitVec 32) : (s.withPc x).depth = s.depth := rfl
@[simp] theorem State.raised_depth (e : ErrorKind) : (s.raised e).depth = s.depth := rfl
@[simp] theorem State.withStack_progLen (x : List Word) : (s.withStack x).progLen = s.progLen := rfl

theorem State.withStack_self : s.withStack s.stack = s := rfl

end Sys2Proof.Machine
end

