-- ==== Sys2Proof/Laws/Decode.lean ====
section
/-! SUPPORT. The decoder on the bytes of the opcode map. -/

namespace Sys2Proof

/-- The two tables of the opcode map, the decoder's and the encoder's, agree. -/
theorem decodeOpcode_byte (o : Opcode) : decodeOpcode o.byte = some o := by
  cases o <;> rfl

/-- A byte decodes to a tag only if it is that tag's byte. -/
theorem eq_byte_of_decodeOpcode {b : Byte} {o : Opcode} (h : decodeOpcode b = some o) :
    b = o.byte := by
  have all : ∀ b : Byte, (decodeOpcode b).all (fun o => b == o.byte) = true := by decide
  simpa [h] using all b

theorem decodeOpcode_eq_some (b : Byte) (o : Opcode) : decodeOpcode b = some o ↔ b = o.byte :=
  ⟨eq_byte_of_decodeOpcode, fun h => h ▸ decodeOpcode_byte o⟩

@[simp] theorem decode_nil : decode [] = .error .endOfBytes := rfl

theorem decode_invalid {b : Byte} (h : decodeOpcode b = none) (rest : List Byte) :
    decode (b :: rest) = .error (.invalidOpcode b) := by simp [decode, h]

theorem decode_push (imm8 : Byte) (rest : List Byte) :
    decode (Opcode.push.byte :: imm8 :: rest) = .ok (.push imm8, rest) := rfl

theorem decode_push_missing : decode [Opcode.push.byte] = .error .operandMissing := rfl

end Sys2Proof
end

