-- ==== Sys2Proof/Laws/Memory.lean ====
section
/-! SUPPORT. The laws of the data memory: a write keeps the canonical form, a read after a write, and
that a canonical memory is determined by what it reads as. -/

namespace Sys2Proof.Machine

theorem Memory.wf_nil : Memory.wf [] := by simp [Memory.wf]

theorem Memory.wf_tail {c : Nat × Word} {m : Memory} (h : Memory.wf (c :: m)) : Memory.wf m :=
  ⟨h.1.of_cons, fun x hx => h.2 x (List.mem_cons_of_mem _ hx)⟩

theorem Memory.head_lt {b : Nat} {w : Word} {m : Memory} (h : Memory.wf ((b, w) :: m)) :
    ∀ c ∈ m, b < c.1 := fun c hc => (List.pairwise_cons.mp h.1).1 c hc

@[simp] theorem Memory.read_nil (a : Nat) : Memory.read [] a = Memory.unlisted := rfl

@[simp] theorem Memory.read_cons (b : Nat) (w : Word) (m : Memory) (a : Nat) :
    Memory.read ((b, w) :: m) a = if b = a then w else m.read a := rfl

theorem Memory.read_of_forall_lt {m : Memory} {a : Nat} (h : ∀ c ∈ m, a < c.1) :
    m.read a = Memory.unlisted := by
  induction m with
  | nil => rfl
  | cons c m ih =>
    have hc : a < c.1 := h c (by simp)
    rw [show (c :: m) = ((c.1, c.2) :: m) from rfl, Memory.read_cons, if_neg (by omega)]
    exact ih fun x hx => h x (List.mem_cons_of_mem _ hx)

/-- A cell in front of a memory whose addresses are all higher. -/
theorem Memory.read_cell_append {m : Memory} {a : Nat} (h : ∀ c ∈ m, a < c.1) (v : Word) (x : Nat) :
    Memory.read (Memory.cell a v ++ m) x = if a = x then v else m.read x := by
  unfold Memory.cell
  split
  · subst v
    split
    · subst x; exact Memory.read_of_forall_lt h
    · rfl
  · simp

/-- What every word reads as after a write (20_memory.md R42, R45 (a)). -/
theorem Memory.read_write {m : Memory} (h : m.wf) (a : Nat) (v : Word) (x : Nat) :
    (m.write a v).read x = if x = a then v else m.read x := by
  induction m with
  | nil =>
    have := Memory.read_cell_append (m := []) (a := a) (by simp) v x
    simpa [Memory.write, eq_comm] using this
  | cons c m ih =>
    obtain ⟨b, w⟩ := c
    have hlt := Memory.head_lt h
    unfold Memory.write
    split
    · rename_i hab
      have := Memory.read_cell_append (m := (b, w) :: m) (a := a)
        (by simp only [List.mem_cons]; rintro c (rfl | hc); exacts [hab, hab.trans (hlt c hc)]) v x
      simpa [eq_comm] using this
    · split
      · rename_i hab; subst hab
        rw [Memory.read_cell_append hlt, Memory.read_cons]
        simp only [eq_comm (a := x)]
        split <;> rfl
      · rename_i hab
        rw [Memory.read_cons, Memory.read_cons, ih (Memory.wf_tail h)]
        split
        · rename_i hbx; subst hbx; rw [if_neg (by omega)]
        · rfl

theorem Memory.read_write_same {m : Memory} (h : m.wf) (a : Nat) (v : Word) :
    (m.write a v).read a = v := by simp [Memory.read_write h]

theorem Memory.read_write_other {m : Memory} (h : m.wf) {a x : Nat} (hx : x ≠ a) (v : Word) :
    (m.write a v).read x = m.read x := by simp [Memory.read_write h, hx]

theorem Memory.mem_cell {a : Nat} {v : Word} {c : Nat × Word} (h : c ∈ Memory.cell a v) :
    c.1 = a ∧ c.2 ≠ Memory.unlisted := by
  unfold Memory.cell at h
  split at h
  · cases h
  · rename_i hv; simp only [List.mem_singleton] at h; subst h; exact ⟨rfl, hv⟩

theorem Memory.mem_write {m : Memory} {a : Nat} {v : Word} {c : Nat × Word}
    (h : c ∈ m.write a v) : (c.1 = a ∧ c.2 ≠ Memory.unlisted) ∨ c ∈ m := by
  induction m with
  | nil => exact .inl (Memory.mem_cell h)
  | cons d m ih =>
    unfold Memory.write at h
    split at h
    · rcases List.mem_append.mp h with h | h
      exacts [.inl (Memory.mem_cell h), .inr h]
    · split at h
      · rcases List.mem_append.mp h with h | h
        exacts [.inl (Memory.mem_cell h), .inr (List.mem_cons_of_mem _ h)]
      · rcases List.mem_cons.mp h with h | h
        · exact .inr (by simp [h])
        · exact (ih h).imp_right (List.mem_cons_of_mem _)

theorem Memory.pairwise_cell_append {m : Memory} {a : Nat} (hm : m.Pairwise (fun x y => x.1 < y.1))
    (h : ∀ c ∈ m, a < c.1) (v : Word) :
    (Memory.cell a v ++ m).Pairwise (fun x y => x.1 < y.1) := by
  unfold Memory.cell
  split
  · exact hm
  · simpa using ⟨fun x y hxy => h (x, y) hxy, hm⟩

/-- A write of a data address keeps the canonical form. -/
theorem Memory.wf_write {m : Memory} (h : m.wf) {a : Nat} (ha : a < memWords) (v : Word) :
    (m.write a v).wf := by
  refine ⟨?_, fun c hc => ?_⟩
  · induction m with
    | nil => simpa [Memory.write] using Memory.pairwise_cell_append (m := []) (by simp) (by simp) v
    | cons c m ih =>
      obtain ⟨b, w⟩ := c
      have hlt := Memory.head_lt h
      unfold Memory.write
      split
      · rename_i hab
        exact Memory.pairwise_cell_append h.1
          (by simp only [List.mem_cons]; rintro c (rfl | hc); exacts [hab, hab.trans (hlt c hc)]) v
      · split
        · rename_i hab; subst hab
          exact Memory.pairwise_cell_append h.1.of_cons hlt v
        · refine List.pairwise_cons.mpr ⟨fun c hc => ?_, ih (Memory.wf_tail h)⟩
          rcases Memory.mem_write hc with ⟨hc, -⟩ | hc
          · dsimp only; omega
          · exact hlt c hc
  · rcases Memory.mem_write hc with ⟨h1, h2⟩ | hc
    exacts [⟨h1 ▸ ha, h2⟩, h.2 c hc]

end Sys2Proof.Machine
end

