-- ==== Sys2Proof/Laws/Ops.lean ====
section
/-! SUPPORT. One lemma per shared operation that says all it can do: the `_elim` lemmas reduce a claim
about the operation's answer to its cases, the others give the answer in each case. -/

namespace Sys2Proof.Machine

variable {s : State} {P : Result → Prop}

/-! ### Peek -/

/-- `peek(k)` on a stack that ends in `v` and `k` values above it. -/
theorem State.peek_append {k : Nat} {h : k < s.depth} {r l : List Word} {v : Word}
    (hk : k = l.length) (hs : s.stack = r ++ v :: l) : s.peek k h = v := by
  subst hk
  simp [State.peek, State.depth, hs]

/-- The top. -/
theorem State.peek_zero {h : 0 < s.depth} {r : List Word} {x : Word} (hs : s.stack = r ++ [x]) :
    s.peek 0 h = x := State.peek_append (l := []) rfl hs

/-- The second from the top. -/
theorem State.peek_one {h : 1 < s.depth} {r : List Word} {y x : Word}
    (hs : s.stack = r ++ [y, x]) : s.peek 1 h = y := State.peek_append (l := [x]) rfl hs

/-- The third from the top. -/
theorem State.peek_two {h : 2 < s.depth} {r : List Word} {z y x : Word}
    (hs : s.stack = r ++ [z, y, x]) : s.peek 2 h = z := State.peek_append (l := [y, x]) rfl hs

/-! ### The shape of a stack of a given depth -/

theorem State.stack_of_one_le (h : 1 ≤ s.depth) : ∃ r x, s.stack = r ++ [x] := by
  rcases List.eq_nil_or_concat' s.stack with hs | ⟨r, x, hs⟩
  · simp [State.depth, hs] at h
  · exact ⟨r, x, hs⟩

theorem State.stack_of_two_le (h : 2 ≤ s.depth) : ∃ r y x, s.stack = r ++ [y, x] := by
  obtain ⟨r, x, hs⟩ := s.stack_of_one_le (by omega)
  obtain ⟨q, y, hr⟩ := (s.withStack r).stack_of_one_le (by simp [State.depth, hs] at h ⊢; omega)
  exact ⟨q, y, x, by rw [hs, show r = q ++ [y] from hr]; simp⟩

theorem State.stack_of_three_le (h : 3 ≤ s.depth) : ∃ r z y x, s.stack = r ++ [z, y, x] := by
  obtain ⟨r, x, hs⟩ := s.stack_of_one_le (by omega)
  obtain ⟨q, z, y, hr⟩ := (s.withStack r).stack_of_two_le (by simp [State.depth, hs] at h ⊢; omega)
  exact ⟨q, z, y, x, by rw [hs, show r = q ++ [z, y] from hr]; simp⟩

/-- A stack is empty, or one value, or ends in two. -/
theorem State.stack_cases_two (s : State) :
    s.stack = [] ∨ (∃ x, s.stack = [x]) ∨ ∃ r y x, s.stack = r ++ [y, x] := by
  rcases List.eq_nil_or_concat' s.stack with h | ⟨r, x, h⟩
  · exact .inl h
  · rcases List.eq_nil_or_concat' r with hr | ⟨q, y, hr⟩
    · exact .inr (.inl ⟨x, by simp [h, hr]⟩)
    · exact .inr (.inr ⟨q, y, x, by simp [h, hr]⟩)

/-- `peek(k)` as an entry of the stack. -/
theorem State.peek_eq_getElem? {k : Nat} {h : k < s.depth} :
    s.stack[s.depth - 1 - k]? = some (s.peek k h) := by
  unfold State.peek
  exact List.getElem?_eq_getElem _

/-! ### Room on the stack -/

theorem State.full_eq_false_of_hasRoom (h : s.hasRoom = true) : s.full = false := by
  unfold State.hasRoom at h
  unfold State.full
  cases hc : s.config.stackCap with
  | inf => rfl
  | finite n =>
    simp only [hc, StackCap.allows, decide_eq_true_eq] at h
    simp only [beq_eq_false_iff_ne]
    omega

theorem State.full_of_stackCap (h : s.config.stackCap = .finite s.depth) : s.full = true := by
  simp [State.full, h]

theorem State.full_inf (h : s.config.stackCap = .inf) : s.full = false := by
  simp [State.full, h]

/-- A stack within the capacity from which a value was taken has room for one. -/
theorem State.full_withStack_of_stackFits {r : List Word} (h : s.stackFits = true)
    (hr : r.length < s.depth) : (s.withStack r).full = false := by
  apply State.full_eq_false_of_hasRoom
  unfold State.hasRoom
  unfold State.stackFits at h
  cases hc : s.config.stackCap with
  | inf => simp [hc, StackCap.allows]
  | finite n =>
    simp only [hc, StackCap.allows, decide_eq_true_eq] at h
    simp only [State.withStack_config, hc, State.withStack_depth, StackCap.allows, decide_eq_true_eq]
    omega

/-! ### pop -/

theorem pop_empty {next : Word → State → Result} (h : s.stack = []) :
    pop s next = raise .stackUnderflow s := by simp [pop, h]

theorem pop_append {next : Word → State → Result} {r : List Word} {v : Word}
    (h : s.stack = r ++ [v]) : pop s next = next v (s.withStack r) := by simp [pop, h]

theorem pop_elim {next : Word → State → Result}
    (empty : s.stack = [] → P (raise .stackUnderflow s))
    (popped : ∀ r v, s.stack = r ++ [v] → P (next v (s.withStack r))) : P (pop s next) := by
  rcases List.eq_nil_or_concat s.stack with h | ⟨r, v, h⟩
  · rw [pop_empty h]; exact empty h
  · rw [pop_append (by simpa using h)]; exact popped r v (by simpa using h)

/-! ### push -/

theorem push_full {v : Word} {next : State → Result} (h : s.full = true) :
    push v s next = raise .stackOverflow s := by simp [push, h]

theorem push_room {v : Word} {next : State → Result} (h : s.full = false) :
    push v s next = next (s.withStack (s.stack ++ [v])) := by simp [push, h]

theorem push_elim {v : Word} {next : State → Result}
    (full : s.full = true → P (raise .stackOverflow s))
    (pushed : s.full = false → P (next (s.withStack (s.stack ++ [v])))) : P (push v s next) := by
  cases h : s.full with
  | true => rw [push_full h]; exact full h
  | false => rw [push_room h]; exact pushed h

/-! ### require -/

theorem require_fails {k : Nat} {e : ErrorKind} {next : k ≤ s.depth → Result} (h : s.depth < k) :
    require k e s next = raise e s := by simp [require, show ¬ k ≤ s.depth by omega]

theorem require_met {k : Nat} {e : ErrorKind} {next : k ≤ s.depth → Result} (h : k ≤ s.depth) :
    require k e s next = next h := by simp [require, h]

theorem require_elim {k : Nat} {e : ErrorKind} {next : k ≤ s.depth → Result}
    (fails : s.depth < k → P (raise e s)) (met : ∀ h : k ≤ s.depth, P (next h)) :
    P (require k e s next) := by
  by_cases h : k ≤ s.depth
  · rw [require_met h]; exact met h
  · rw [require_fails (by omega)]; exact fails (by omega)

/-! ### The address and target checks -/

theorem inBounds_iff (a : Word) : inBounds a = true ↔ 0 ≤ a.toInt ∧ a.toInt < 256 := by
  unfold inBounds memWords
  exact decide_eq_true_iff

theorem validTarget_iff (t : Word) (l : Nat) :
    validTarget t l = true ↔ 0 ≤ t.toInt ∧ t.toInt < l := by simp [validTarget]

theorem condTaken_iff (c : Word) : condTaken c = true ↔ c.toInt ≠ 0 := by simp [condTaken]

theorem operandPresent_iff (pc : BitVec 32) (l : Nat) :
    operandPresent pc l = true ↔ pc.toNat + 1 < l := by simp [operandPresent]

/-- A value that is not negative is the same number read signed and unsigned. -/
theorem toNat_of_toInt_nonneg {a : Word} (h : 0 ≤ a.toInt) : (a.toNat : Int) = a.toInt := by
  rw [BitVec.toInt_eq_toNat_cond] at h ⊢
  split at h <;> omega

theorem dataAddress_lt_of_inBounds {a : Word} (h : inBounds a = true) : dataAddress a < memWords := by
  have h := (inBounds_iff a).mp h
  have := toNat_of_toInt_nonneg h.1
  unfold dataAddress memWords
  omega

end Sys2Proof.Machine
end

