-- ==== Sys2Proof/Laws/ExecEq.lean ====
section
/-! SUPPORT. What each meaning answers, case by case, as equations: `_empty`, `_one` and `_short` are the
stacks too short, `_done` the completion.  Laws/Exec.lean puts the cases of each meaning together. -/

namespace Sys2Proof.Machine

variable {s : State}

/-! ### Two pops in a row -/

theorem pop_pop_one {next : Word → Word → State → Result} {x : Word} (h : s.stack = [x]) :
    (pop s fun x s => pop s fun y s => next x y s) =
      .next ((s.withStack []).raised .stackUnderflow) := by
  rw [pop_append (r := []) (by simpa using h), pop_empty rfl]
  rfl

theorem pop_pop_append {next : Word → Word → State → Result} {r : List Word} {y x : Word}
    (h : s.stack = r ++ [y, x]) :
    (pop s fun x s => pop s fun y s => next x y s) = next x y (s.withStack r) := by
  rw [pop_append (r := r ++ [y]) (by simpa using h), pop_append rfl]
  rfl

/-! ### Push, Pop -/

theorem execPush_missing {imm8 : Byte} (h : operandPresent s.pc s.progLen = false) :
    execPush imm8 s = .next (s.raised .invalidProgramCounter) := by simp [execPush, h, raise]

theorem execPush_full {imm8 : Byte} (h : operandPresent s.pc s.progLen = true)
    (hf : s.full = true) : execPush imm8 s = .next (s.raised .stackOverflow) := by
  simp [execPush, h, push_full hf, raise]

theorem execPush_done {imm8 : Byte} (h : operandPresent s.pc s.progLen = true)
    (hf : s.full = false) :
    execPush imm8 s = .next ((s.withStack (s.stack ++ [zext32 imm8])).withPc (s.pc + 2)) := by
  simp [execPush, h, push_room hf, advance]

theorem execPop_empty (h : s.stack = []) : execPop s = .next (s.raised .stackUnderflow) :=
  pop_empty h

theorem execPop_done {r : List Word} {x : Word} (h : s.stack = r ++ [x]) :
    execPop s = .next ((s.withStack r).withPc (s.pc + 1)) := pop_append h

/-! ### The ALU dispatch engine -/

theorem binOp_empty {f : Int → Int → Int} (h : s.stack = []) :
    binOp f s = .next (s.raised .stackUnderflow) := pop_empty h

theorem binOp_one {f : Int → Int → Int} {x : Word} (h : s.stack = [x]) :
    binOp f s = .next ((s.withStack []).raised .stackUnderflow) := pop_pop_one h

theorem binOp_full {f : Int → Int → Int} {r : List Word} {a b : Word}
    (h : s.stack = r ++ [a, b]) (hf : (s.withStack r).full = true) :
    binOp f s = .next ((s.withStack r).raised .stackOverflow) :=
  (pop_pop_append h).trans (push_full hf)

theorem binOp_done {f : Int → Int → Int} {r : List Word} {a b : Word}
    (h : s.stack = r ++ [a, b]) (hf : (s.withStack r).full = false) :
    binOp f s = .next ((s.withStack (r ++ [wrap32 (f a.toInt b.toInt)])).withPc (s.pc + 1)) :=
  (pop_pop_append h).trans (push_room hf)

/-! ### Store, Load -/

theorem execStore_empty (h : s.stack = []) : execStore s = .next (s.raised .stackUnderflow) :=
  pop_empty h

theorem execStore_one {x : Word} (h : s.stack = [x]) :
    execStore s = .next ((s.withStack []).raised .stackUnderflow) := pop_pop_one h

theorem execStore_outside {r : List Word} {v a : Word} (h : s.stack = r ++ [v, a])
    (hb : inBounds a = false) : execStore s = .next ((s.withStack r).raised .memoryOutOfBounds) :=
  (pop_pop_append h).trans (by simp [hb, raise])

theorem execStore_done {r : List Word} {v a : Word} (h : s.stack = r ++ [v, a])
    (hb : inBounds a = true) :
    execStore s =
      .next (((s.withStack r).withMem (s.mem.write (dataAddress a) v)).withPc (s.pc + 1)) :=
  (pop_pop_append h).trans (by simp [hb, advance])

theorem execLoad_empty (h : s.stack = []) : execLoad s = .next (s.raised .stackUnderflow) :=
  pop_empty h

theorem execLoad_outside {r : List Word} {a : Word} (h : s.stack = r ++ [a])
    (hb : inBounds a = false) : execLoad s = .next ((s.withStack r).raised .memoryOutOfBounds) :=
  (pop_append h).trans (by simp [hb, raise])

theorem execLoad_full {r : List Word} {a : Word} (h : s.stack = r ++ [a])
    (hb : inBounds a = true) (hf : (s.withStack r).full = true) :
    execLoad s = .next ((s.withStack r).raised .stackOverflow) :=
  (pop_append h).trans (by simp [hb, push_full hf, raise])

theorem execLoad_done {r : List Word} {a : Word} (h : s.stack = r ++ [a])
    (hb : inBounds a = true) (hf : (s.withStack r).full = false) :
    execLoad s =
      .next ((s.withStack (r ++ [s.mem.read (dataAddress a)])).withPc (s.pc + 1)) :=
  (pop_append h).trans ((if_pos hb).trans (push_room hf))

/-! ### Jmp, JumpIf -/

theorem execJmp_empty (h : s.stack = []) : execJmp s = .next (s.raised .stackUnderflow) :=
  pop_empty h

theorem execJmp_invalid {r : List Word} {t : Word} (h : s.stack = r ++ [t])
    (hv : validTarget t s.progLen = false) :
    execJmp s = .next ((s.withStack r).raised .invalidJumpTarget) :=
  (pop_append h).trans (by simp [hv, raise])

theorem execJmp_done {r : List Word} {t : Word} (h : s.stack = r ++ [t])
    (hv : validTarget t s.progLen = true) :
    execJmp s = .next ((s.withStack r).withPc (targetPc t)) :=
  (pop_append h).trans (by simp [hv, jumpTo])

theorem execJumpIf_empty (h : s.stack = []) : execJumpIf s = .next (s.raised .stackUnderflow) :=
  pop_empty h

theorem execJumpIf_one {x : Word} (h : s.stack = [x]) :
    execJumpIf s = .next ((s.withStack []).raised .stackUnderflow) := pop_pop_one h

theorem execJumpIf_invalid {r : List Word} {t c : Word} (h : s.stack = r ++ [t, c])
    (hv : validTarget t s.progLen = false) :
    execJumpIf s = .next ((s.withStack r).raised .invalidJumpTarget) :=
  (pop_pop_append h).trans (by simp [hv, raise])

theorem execJumpIf_taken {r : List Word} {t c : Word} (h : s.stack = r ++ [t, c])
    (hv : validTarget t s.progLen = true) (hc : condTaken c = true) :
    execJumpIf s = .next ((s.withStack r).withPc (targetPc t)) :=
  (pop_pop_append h).trans (by simp [hv, hc, jumpTo])

theorem execJumpIf_untaken {r : List Word} {t c : Word} (h : s.stack = r ++ [t, c])
    (hv : validTarget t s.progLen = true) (hc : condTaken c = false) :
    execJumpIf s = .next ((s.withStack r).withPc (s.pc + 1)) :=
  (pop_pop_append h).trans (by simp [hv, hc, advance])

/-! ### Dup, Swap, Rot, Over, Pick -/

theorem execDup_empty (h : s.stack = []) : execDup s = .next (s.raised .stackIsEmpty) :=
  require_fails (by simp [State.depth, h])

theorem execDup_full (h : 1 ≤ s.depth) (hf : s.full = true) :
    execDup s = .next (s.raised .stackOverflow) :=
  (require_met h).trans (push_full hf)

theorem execDup_done {r : List Word} {x : Word} (h : s.stack = r ++ [x]) (hf : s.full = false) :
    execDup s = .next ((s.withStack (r ++ [x, x])).withPc (s.pc + 1)) :=
  (require_met (by simp [State.depth, h])).trans ((push_room hf).trans
    (by simp [State.peek_zero h, h, advance]))

theorem execSwap_short (h : s.depth < 2) : execSwap s = .next (s.raised .notEnoughItemsInStack) :=
  require_fails h

theorem execSwap_done {r : List Word} {a b : Word} (h : s.stack = r ++ [a, b]) :
    execSwap s = .next ((s.withStack (r ++ [b, a])).withPc (s.pc + 1)) := by
  refine (require_met (by simp [State.depth, h])).trans ?_
  rw [State.peek_one h, State.peek_zero (r := r ++ [a]) (x := b) (by simpa using h)]
  simp [State.replaceTop, State.depth, h, advance]

theorem execRot_short (h : s.depth < 3) : execRot s = .next (s.raised .notEnoughItemsInStack) :=
  require_fails h

theorem execRot_done {r : List Word} {a b c : Word} (h : s.stack = r ++ [a, b, c]) :
    execRot s = .next ((s.withStack (r ++ [b, c, a])).withPc (s.pc + 1)) := by
  refine (require_met (by simp [State.depth, h])).trans ?_
  rw [State.peek_two h, State.peek_one (r := r ++ [a]) (y := b) (x := c) (by simpa using h),
    State.peek_zero (r := r ++ [a, b]) (x := c) (by simpa using h)]
  simp [State.replaceTop, State.depth, h, advance]

theorem execOver_short (h : s.depth < 2) : execOver s = .next (s.raised .notEnoughItemsInStack) :=
  require_fails h

theorem execOver_full (h : 2 ≤ s.depth) (hf : s.full = true) :
    execOver s = .next (s.raised .stackOverflow) :=
  (require_met h).trans (push_full hf)

theorem execOver_done {r : List Word} {a b : Word} (h : s.stack = r ++ [a, b])
    (hf : s.full = false) :
    execOver s = .next ((s.withStack (r ++ [a, b, a])).withPc (s.pc + 1)) :=
  (require_met (by simp [State.depth, h])).trans ((push_room hf).trans
    (by simp [State.peek_one h, h, advance]))

theorem execPick_empty (h : s.stack = []) : execPick s = .next (s.raised .stackUnderflow) :=
  pop_empty h

/-- `r` is the stack after the pop of `n`, `r.length` the spec's `d'`. -/
theorem execPick_outside {r : List Word} {n : Word} (h : s.stack = r ++ [n])
    (hn : ¬ (1 ≤ n.toInt ∧ n.toInt < r.length)) :
    execPick s = .next ((s.withStack r).raised .notEnoughItemsInStack) :=
  (pop_append h).trans (dif_neg hn)

theorem execPick_full {r : List Word} {n : Word} (h : s.stack = r ++ [n]) (h1 : 1 ≤ n.toInt)
    (h2 : n.toInt < r.length) (hf : (s.withStack r).full = true) :
    execPick s = .next ((s.withStack r).raised .stackOverflow) :=
  (pop_append h).trans ((dif_pos ⟨h1, h2⟩).trans (push_full hf))

theorem execPick_done {r : List Word} {n x : Word} (h : s.stack = r ++ [n]) (h1 : 1 ≤ n.toInt)
    (h2 : n.toInt < r.length) (hx : r[r.length - n.toInt.toNat]? = some x)
    (hf : (s.withStack r).full = false) :
    execPick s = .next ((s.withStack (r ++ [x])).withPc (s.pc + 1)) := by
  have hk : n.toInt.toNat - 1 < (s.withStack r).depth := by simp only [State.withStack_depth]; omega
  have hp : (s.withStack r).peek (n.toInt.toNat - 1) hk = x := by
    have := State.peek_eq_getElem? (h := hk)
    simp only [State.withStack_stack, State.withStack_depth] at this
    rw [show r.length - 1 - (n.toInt.toNat - 1) = r.length - n.toInt.toNat by omega, hx] at this
    exact (Option.some.inj this).symm
  refine (pop_append h).trans ((dif_pos ⟨h1, h2⟩).trans ((push_room hf).trans ?_))
  rw [hp]
  rfl

end Sys2Proof.Machine
end

