-- ==== Sys2Proof/Laws/Exec.lean ====
section
/-! SUPPORT. One lemma per meaning that says once all it can do: any claim `Q` follows when it is
proved in each of the cases, where the instruction's answer is known.  Every answer is a next state. -/

namespace Sys2Proof.Machine

variable (s : State) {Q : Prop}

theorem execPush_cases (imm8 : Byte)
    (missing : operandPresent s.pc s.progLen = false → execPush imm8 s = .next (s.raised .invalidProgramCounter) → Q)
    (full : operandPresent s.pc s.progLen = true → s.full = true → execPush imm8 s = .next (s.raised .stackOverflow) → Q)
    (done : operandPresent s.pc s.progLen = true → s.full = false →
      execPush imm8 s = .next ((s.withStack (s.stack ++ [zext32 imm8])).withPc (s.pc + 2)) → Q) :
    Q := by
  cases h : operandPresent s.pc s.progLen with
  | false => exact missing h (execPush_missing h)
  | true =>
    cases hf : s.full with
    | true => exact full h hf (execPush_full h hf)
    | false => exact done h hf (execPush_done h hf)

theorem execPop_cases
    (empty : s.stack = [] → execPop s = .next (s.raised .stackUnderflow) → Q)
    (done : ∀ r x, s.stack = r ++ [x] → execPop s = .next ((s.withStack r).withPc (s.pc + 1)) → Q) :
    Q := by
  rcases List.eq_nil_or_concat' s.stack with h | ⟨r, x, h⟩
  exacts [empty h (execPop_empty h), done r x h (execPop_done h)]

/-- The full case does not happen on a stack within the capacity (`State.full_withStack_of_stackFits`). -/
theorem binOp_cases (f : Int → Int → Int)
    (empty : s.stack = [] → binOp f s = .next (s.raised .stackUnderflow) → Q)
    (one : ∀ x, s.stack = [x] → binOp f s = .next ((s.withStack []).raised .stackUnderflow) → Q)
    (full : ∀ r a b, s.stack = r ++ [a, b] → (s.withStack r).full = true →
      binOp f s = .next ((s.withStack r).raised .stackOverflow) → Q)
    (done : ∀ r a b, s.stack = r ++ [a, b] → (s.withStack r).full = false →
      binOp f s = .next ((s.withStack (r ++ [wrap32 (f a.toInt b.toInt)])).withPc (s.pc + 1)) → Q) :
    Q := by
  rcases s.stack_cases_two with h | ⟨x, h⟩ | ⟨r, a, b, h⟩
  · exact empty h (binOp_empty h)
  · exact one x h (binOp_one h)
  · cases hf : (s.withStack r).full with
    | true => exact full r a b h hf (binOp_full h hf)
    | false => exact done r a b h hf (binOp_done h hf)

theorem execStore_cases
    (empty : s.stack = [] → execStore s = .next (s.raised .stackUnderflow) → Q)
    (one : ∀ x, s.stack = [x] → execStore s = .next ((s.withStack []).raised .stackUnderflow) → Q)
    (outside : ∀ r v a, s.stack = r ++ [v, a] → inBounds a = false →
      execStore s = .next ((s.withStack r).raised .memoryOutOfBounds) → Q)
    (done : ∀ r v a, s.stack = r ++ [v, a] → inBounds a = true →
      execStore s = .next (((s.withStack r).withMem (s.mem.write (dataAddress a) v)).withPc (s.pc + 1)) → Q) :
    Q := by
  rcases s.stack_cases_two with h | ⟨x, h⟩ | ⟨r, v, a, h⟩
  · exact empty h (execStore_empty h)
  · exact one x h (execStore_one h)
  · cases hb : inBounds a with
    | false => exact outside r v a h hb (execStore_outside h hb)
    | true => exact done r v a h hb (execStore_done h hb)

theorem execLoad_cases
    (empty : s.stack = [] → execLoad s = .next (s.raised .stackUnderflow) → Q)
    (outside : ∀ r a, s.stack = r ++ [a] → inBounds a = false →
      execLoad s = .next ((s.withStack r).raised .memoryOutOfBounds) → Q)
    (full : ∀ r a, s.stack = r ++ [a] → inBounds a = true → (s.withStack r).full = true →
      execLoad s = .next ((s.withStack r).raised .stackOverflow) → Q)
    (done : ∀ r a, s.stack = r ++ [a] → inBounds a = true → (s.withStack r).full = false →
      execLoad s = .next ((s.withStack (r ++ [s.mem.read (dataAddress a)])).withPc (s.pc + 1)) → Q) :
    Q := by
  rcases List.eq_nil_or_concat' s.stack with h | ⟨r, a, h⟩
  · exact empty h (execLoad_empty h)
  · cases hb : inBounds a with
    | false => exact outside r a h hb (execLoad_outside h hb)
    | true =>
      cases hf : (s.withStack r).full with
      | true => exact full r a h hb hf (execLoad_full h hb hf)
      | false => exact done r a h hb hf (execLoad_done h hb hf)

theorem execJmp_cases
    (empty : s.stack = [] → execJmp s = .next (s.raised .stackUnderflow) → Q)
    (invalid : ∀ r t, s.stack = r ++ [t] → validTarget t s.progLen = false →
      execJmp s = .next ((s.withStack r).raised .invalidJumpTarget) → Q)
    (done : ∀ r t, s.stack = r ++ [t] → validTarget t s.progLen = true →
      execJmp s = .next ((s.withStack r).withPc (targetPc t)) → Q) :
    Q := by
  rcases List.eq_nil_or_concat' s.stack with h | ⟨r, t, h⟩
  · exact empty h (execJmp_empty h)
  · cases hv : validTarget t s.progLen with
    | false => exact invalid r t h hv (execJmp_invalid h hv)
    | true => exact done r t h hv (execJmp_done h hv)

theorem execJumpIf_cases
    (empty : s.stack = [] → execJumpIf s = .next (s.raised .stackUnderflow) → Q)
    (one : ∀ x, s.stack = [x] → execJumpIf s = .next ((s.withStack []).raised .stackUnderflow) → Q)
    (invalid : ∀ r t c, s.stack = r ++ [t, c] → validTarget t s.progLen = false →
      execJumpIf s = .next ((s.withStack r).raised .invalidJumpTarget) → Q)
    (taken : ∀ r t c, s.stack = r ++ [t, c] → validTarget t s.progLen = true →
      condTaken c = true → execJumpIf s = .next ((s.withStack r).withPc (targetPc t)) → Q)
    (untaken : ∀ r t c, s.stack = r ++ [t, c] → validTarget t s.progLen = true →
      condTaken c = false → execJumpIf s = .next ((s.withStack r).withPc (s.pc + 1)) → Q) :
    Q := by
  rcases s.stack_cases_two with h | ⟨x, h⟩ | ⟨r, t, c, h⟩
  · exact empty h (execJumpIf_empty h)
  · exact one x h (execJumpIf_one h)
  · cases hv : validTarget t s.progLen with
    | false => exact invalid r t c h hv (execJumpIf_invalid h hv)
    | true =>
      cases hc : condTaken c with
      | true => exact taken r t c h hv hc (execJumpIf_taken h hv hc)
      | false => exact untaken r t c h hv hc (execJumpIf_untaken h hv hc)

theorem execDup_cases
    (empty : s.stack = [] → execDup s = .next (s.raised .stackIsEmpty) → Q)
    (full : ∀ r x, s.stack = r ++ [x] → s.full = true → execDup s = .next (s.raised .stackOverflow) → Q)
    (done : ∀ r x, s.stack = r ++ [x] → s.full = false →
      execDup s = .next ((s.withStack (r ++ [x, x])).withPc (s.pc + 1)) → Q) :
    Q := by
  rcases List.eq_nil_or_concat' s.stack with h | ⟨r, x, h⟩
  · exact empty h (execDup_empty h)
  · cases hf : s.full with
    | true => exact full r x h hf (execDup_full (by simp [State.depth, h]) hf)
    | false => exact done r x h hf (execDup_done h hf)

theorem execSwap_cases
    (short : s.depth < 2 → execSwap s = .next (s.raised .notEnoughItemsInStack) → Q)
    (done : ∀ r a b, s.stack = r ++ [a, b] →
      execSwap s = .next ((s.withStack (r ++ [b, a])).withPc (s.pc + 1)) → Q) :
    Q := by
  by_cases h : s.depth < 2
  · exact short h (execSwap_short h)
  · obtain ⟨r, a, b, h⟩ := s.stack_of_two_le (by omega)
    exact done r a b h (execSwap_done h)

theorem execRot_cases
    (short : s.depth < 3 → execRot s = .next (s.raised .notEnoughItemsInStack) → Q)
    (done : ∀ r a b c, s.stack = r ++ [a, b, c] →
      execRot s = .next ((s.withStack (r ++ [b, c, a])).withPc (s.pc + 1)) → Q) :
    Q := by
  by_cases h : s.depth < 3
  · exact short h (execRot_short h)
  · obtain ⟨r, a, b, c, h⟩ := s.stack_of_three_le (by omega)
    exact done r a b c h (execRot_done h)

theorem execOver_cases
    (short : s.depth < 2 → execOver s = .next (s.raised .notEnoughItemsInStack) → Q)
    (full : ∀ r a b, s.stack = r ++ [a, b] → s.full = true → execOver s = .next (s.raised .stackOverflow) → Q)
    (done : ∀ r a b, s.stack = r ++ [a, b] → s.full = false →
      execOver s = .next ((s.withStack (r ++ [a, b, a])).withPc (s.pc + 1)) → Q) :
    Q := by
  by_cases h : s.depth < 2
  · exact short h (execOver_short h)
  · obtain ⟨r, a, b, hs⟩ := s.stack_of_two_le (by omega)
    cases hf : s.full with
    | true => exact full r a b hs hf (execOver_full (by omega) hf)
    | false => exact done r a b hs hf (execOver_done hs hf)

/-- `r` is the stack after the pop of `n`, `r.length` the spec's `d'`. -/
theorem execPick_cases
    (empty : s.stack = [] → execPick s = .next (s.raised .stackUnderflow) → Q)
    (outside : ∀ (r : List Word) (n : Word), s.stack = r ++ [n] → ¬ (1 ≤ n.toInt ∧ n.toInt < r.length) →
      execPick s = .next ((s.withStack r).raised .notEnoughItemsInStack) → Q)
    (full : ∀ (r : List Word) (n : Word), s.stack = r ++ [n] → 1 ≤ n.toInt → n.toInt < r.length →
      (s.withStack r).full = true →
      execPick s = .next ((s.withStack r).raised .stackOverflow) → Q)
    (done : ∀ (r : List Word) (n x : Word), s.stack = r ++ [n] → 1 ≤ n.toInt → n.toInt < r.length →
      r[r.length - n.toInt.toNat]? = some x → (s.withStack r).full = false →
      execPick s = .next ((s.withStack (r ++ [x])).withPc (s.pc + 1)) → Q) :
    Q := by
  rcases List.eq_nil_or_concat' s.stack with h | ⟨r, n, h⟩
  · exact empty h (execPick_empty h)
  · by_cases hn : 1 ≤ n.toInt ∧ n.toInt < r.length
    · obtain ⟨x, hx⟩ : ∃ x, r[r.length - n.toInt.toNat]? = some x :=
        ⟨_, List.getElem?_eq_getElem (by omega)⟩
      cases hf : (s.withStack r).full with
      | true => exact full r n h hn.1 hn.2 hf (execPick_full h hn.1 hn.2 hf)
      | false => exact done r n x h hn.1 hn.2 hx hf (execPick_done h hn.1 hn.2 hx hf)
    · exact outside r n h hn (execPick_outside h hn)

end Sys2Proof.Machine
end

