-- ==== Sys2Proof/Laws/PerInstr.lean ====
section
/-! SUPPORT. Statements made of every instruction, one lemma per constructor. -/

namespace Sys2Proof.Laws.EncodingShape

/-- An instruction's bytes begin with its opcode byte, and there are as many as its opcode byte tells
(30_encoding.md R48, R50). -/
def Statement (i : Instr) : Prop :=
  (encode i).head? = some i.opcode.byte ∧ (encode i).length = i.opcode.length

theorem push (imm8 : Byte) : Statement (.push imm8) := ⟨rfl, rfl⟩
theorem pop : Statement .pop := ⟨rfl, rfl⟩
theorem add : Statement .add := ⟨rfl, rfl⟩
theorem sub : Statement .sub := ⟨rfl, rfl⟩
theorem store : Statement .store := ⟨rfl, rfl⟩
theorem load : Statement .load := ⟨rfl, rfl⟩
theorem jmp : Statement .jmp := ⟨rfl, rfl⟩
theorem jumpIf : Statement .jumpIf := ⟨rfl, rfl⟩
theorem dup : Statement .dup := ⟨rfl, rfl⟩
theorem swap : Statement .swap := ⟨rfl, rfl⟩
theorem rot : Statement .rot := ⟨rfl, rfl⟩
theorem overNos : Statement .overNos := ⟨rfl, rfl⟩
theorem pick : Statement .pick := ⟨rfl, rfl⟩
theorem mul : Statement .mul := ⟨rfl, rfl⟩

end Sys2Proof.Laws.EncodingShape
end

