-- ==== Sys2Proof/Laws/Step.lean ====
section
/-! SUPPORT. What a step does, case by case. -/

namespace Sys2Proof.Machine

variable {s : State}

theorem step_command {c : HostCommand} (h : s.pendingCommand = some c) :
    step s = hostCommand c s.afterBoundary := by simp [step, h]

theorem step_running (h : s.pendingCommand = none) (hr : s.status = .running) :
    step s = coreStep s.afterBoundary := by simp [step, h, hr]

theorem step_waiting (h : s.pendingCommand = none) (hr : s.status ≠ .running) :
    step s = .next s.afterBoundary := by simp [step, h, hr]

/-- All a step can do: take the host's command, run one step of the execute loop, or nothing. -/
theorem step_elim {P : Result → Prop}
    (command : ∀ c, s.pendingCommand = some c → P (hostCommand c s.afterBoundary))
    (run : s.pendingCommand = none → s.status = .running → P (coreStep s.afterBoundary))
    (wait : s.pendingCommand = none → s.status ≠ .running → P (.next s.afterBoundary)) :
    P (step s) := by
  cases h : s.pendingCommand with
  | some c => rw [step_command h]; exact command c h
  | none =>
    by_cases hr : s.status = .running
    · rw [step_running h hr]; exact run h hr
    · rw [step_waiting h hr]; exact wait h hr

@[simp] theorem State.afterBoundary_bytesAtPc : s.afterBoundary.bytesAtPc = s.bytesAtPc := rfl

theorem State.bytesAtPc_eq_nil : s.bytesAtPc = [] ↔ s.progLen ≤ s.pc.toNat := by
  simp [State.bytesAtPc, State.progLen]

theorem fetch_ok {i : Instr} {rest : List Byte} (h : decode s.bytesAtPc = .ok (i, rest)) :
    fetch s = .ok i := by simp [fetch, h]

theorem fetch_error {e : DecodeError} (h : decode s.bytesAtPc = .error e) :
    fetch s = .error e := by simp [fetch, h]

theorem coreStep_ok {i : Instr} {rest : List Byte} (h : decode s.bytesAtPc = .ok (i, rest)) :
    coreStep s = exec i s := by simp [coreStep, fetch_ok h]

theorem coreStep_error {e : DecodeError} (h : decode s.bytesAtPc = .error e) :
    coreStep s = noInstruction e s := by simp [coreStep, fetch_error h]

/-- All a step of the execute loop can do: run the decoded instruction, or end it where there is none. -/
theorem coreStep_elim {P : Result → Prop}
    (run : ∀ i rest, decode s.bytesAtPc = .ok (i, rest) → P (exec i s))
    (none : ∀ e, decode s.bytesAtPc = .error e → P (noInstruction e s)) : P (coreStep s) := by
  cases h : decode s.bytesAtPc with
  | ok p => rw [coreStep_ok (i := p.1) (rest := p.2) h]; exact run p.1 p.2 h
  | error e => rw [coreStep_error h]; exact none e h

/-- The memory after reset is in canonical form. -/
theorem reset_mem_wf : State.reset.mem.wf := Memory.wf_nil

end Sys2Proof.Machine
end

