-- ==== Sys2Proof/Tests/Slice0.lean ====
section
/-! SUPPORT. Tests: the WellFormed smoke test, words written out from the spec's encodings, one-step
vectors of 95_test_vectors.md, and for every statement with hypotheses concrete data that meets them. -/

namespace Sys2Proof.Tests

open Sys2Proof Sys2Proof.Machine

/-! ### What the checks of WellFormed refuse -/

theorem test_wf_refuses_empty_stack_capacity :
    (StackCap.finite 0).wf = false ∧ (StackCap.finite 1).wf = true ∧ StackCap.inf.wf = true := by decide

theorem test_wf_refuses_program_length_beyond_pc :
    (Config.mk .inf (2 ^ 32)).wf = false ∧ (Config.mk .inf (2 ^ 32 - 1)).wf = true ∧
    (Config.mk (.finite 0) 5).wf = false := by decide

theorem test_admits_refuses_longer_program :
    (Config.mk .inf 1).admits [0x02, 0x02] = false ∧ (Config.mk .inf 1).admits [0x02] = true := by decide

/-! ### Decoding, from 30_encoding.md R49, R51, R52 -/

theorem test_decode_stack : decode [0b00000001#8, 0b10000000#8] = .ok (.push 128, []) ∧
    decode [0b00000010#8] = .ok (.pop, []) := by decide

theorem test_decode_arithmetic : decode [0b00000011#8] = .ok (.add, []) ∧
    decode [0b00000100#8] = .ok (.sub, []) ∧ decode [0b00010100#8] = .ok (.mul, []) := by decide

theorem test_decode_memory : decode [0b00000101#8] = .ok (.store, []) ∧
    decode [0b00000110#8, 0b00000001#8] = .ok (.load, [0b00000001#8]) := by decide

theorem test_decode_control : decode [0b00000111#8] = .ok (.jmp, []) ∧
    decode [0b00001000#8] = .ok (.jumpIf, []) := by decide

theorem test_decode_manipulation : decode [0b00001001#8] = .ok (.dup, []) ∧
    decode [0b00010000#8] = .ok (.swap, []) ∧ decode [0b00010001#8] = .ok (.rot, []) ∧
    decode [0b00010010#8] = .ok (.overNos, []) ∧ decode [0b00010011#8] = .ok (.pick, []) := by decide

/-! ### One step each, from 95_test_vectors.md section 2 -/

/-- A running CORE with this program and stack, at `pc` 0. -/
def running (program : List Byte) (stack : List Word) : State :=
  { State.reset with program := program, stack := stack, status := .running }

/-- The same with a finite capacity. -/
def capped (n : Nat) (program : List Byte) (stack : List Word) : State :=
  { running program stack with config := { State.reset.config with stackCap := .finite n } }

/-- What a vector of 95_test_vectors.md shows: stack, `pc` and error code. -/
def seen : Result → Option (List Word × BitVec 32 × BitVec 4)
  | .next s => some (s.stack, s.pc, s.err)
  | .fault _ => none
  | .refused _ => none

/-- The run status after it. -/
def seenStatus : Result → Option Status
  | .next s => some s.status
  | .fault _ => none
  | .refused _ => none

/-- The stack and a word of memory after it. -/
def seenMem (a : Nat) : Result → Option (List Word × Word)
  | .next s => some (s.stack, s.mem.read a)
  | .fault _ => none
  | .refused _ => none

theorem test_V2_invalid_opcode : seen (step (running [0x0A] [1, 2])) = some ([1, 2], 0, 6) ∧
    seenStatus (step (running [0x0A] [1, 2])) = some .haltedErr := by decide

theorem test_V7_empty_program : seen (step (running [] [])) = some ([], 0, 0) ∧
    seenStatus (step (running [] [])) = some .haltedOk := by decide

theorem test_push_V8a : seen (step (running [0x01, 0xFF] [7])) = some ([7, 255], 2, 0) := by decide
theorem test_push_V12 : seen (step (capped 2 [0x01] [1, 2])) = some ([1, 2], 0, 7) := by decide

theorem test_pop_V13 : seen (step (running [0x02] [1, 2])) = some ([1], 1, 0) := by decide
theorem test_pop_V14 : seen (step (running [0x02] [])) = some ([], 0, 1) := by decide

theorem test_add_V16 : seen (step (running [0x03] [2147483647, 1])) = some ([-2147483648], 1, 0) := by
  decide
theorem test_add_V18 : seen (step (running [0x03] [9])) = some ([], 0, 1) := by decide

theorem test_sub_V20a : seen (step (running [0x04] [2, 5])) = some ([-3], 1, 0) := by decide
theorem test_sub_V20d : seen (step (running [0x04] [0, -2147483648])) = some ([-2147483648], 1, 0) := by
  decide

theorem test_mul_V22a : seen (step (running [0x14] [-3, 7])) = some ([-21], 1, 0) := by decide
theorem test_mul_V22d : seen (step (running [0x14] [46341, 46341])) = some ([-2147479015], 1, 0) := by
  decide

theorem test_store_V26 : seenMem 3 (step (running [0x05] [1, 2, 3])) = some ([1], 2) := by decide
theorem test_store_V29 : seen (step (running [0x05] [300])) = some ([], 0, 1) := by decide

theorem test_load_V33 :
    seen (step { running [0x06] [255] with mem := [(255, -1)] }) = some ([-1], 1, 0) := by decide
theorem test_load_V34 : seen (step (running [0x06] [8, 256])) = some ([8], 0, 4) := by decide

theorem test_jmp_V37 : seen (step (running [0x07, 2, 2, 2, 2, 2] [6])) = some ([], 0, 5) := by decide
theorem test_jmp_V38 : seen (step (running [0x07, 2, 2, 2, 2, 2] [5])) = some ([], 5, 0) := by decide

theorem test_jumpIf_V65 : seen (step (running [0x08, 2, 2, 2, 2, 2] [3, 4])) = some ([], 3, 0) := by
  decide
theorem test_jumpIf_V66 : seen (step (running [0x08, 2, 2, 2, 2, 2] [6, 0])) = some ([], 0, 5) := by
  decide

theorem test_dup_V40 : seen (step (running [0x09] [1, 2, 3])) = some ([1, 2, 3, 3], 1, 0) := by decide
theorem test_dup_V42 : seen (step (capped 1 [0x09] [5])) = some ([5], 0, 8) := by decide

theorem test_swap_V43 : seen (step (running [0x10] [1, 2, 3])) = some ([1, 3, 2], 1, 0) := by decide
theorem test_swap_V45 : seen (step (running [0x10] [])) = some ([], 0, 3) := by decide

theorem test_rot_V47 : seen (step (running [0x11] [9, 1, 2, 3])) = some ([9, 2, 3, 1], 1, 0) := by decide
theorem test_rot_V48 : seen (step (running [0x11] [1, 2])) = some ([1, 2], 0, 3) := by decide

theorem test_over_V49 : seen (step (running [0x12] [1, 2, 3])) = some ([1, 2, 3, 2], 1, 0) := by decide
theorem test_over_V51 : seen (step (capped 2 [0x12] [1, 2])) = some ([1, 2], 0, 8) := by decide

theorem test_pick_V54 : seen (step (running [0x13] [1, 2, 3, 4, 3])) = some ([1, 2, 3, 4, 2], 1, 0) := by
  decide
theorem test_pick_V55 : seen (step (running [0x13] [1, 2, 3, 4, 4])) = some ([1, 2, 3, 4], 0, 3) := by
  decide

/-! ### Witnesses: data that meets the hypotheses of each statement, clause by clause -/

theorem witness_LengthFollowsFromOpcodeByte :
    decode [0x01, 0xFF] = .ok (.push 255, []) ∧ decode [0x02, 0x09] = .ok (.pop, [0x09]) ∧
    decodeOpcode 0x00 = none ∧ decodeOpcode 0x0A = none ∧ decodeOpcode 0x0F = none ∧
    decodeOpcode 0x15 = none ∧ decodeOpcode 0xFF = none := by decide

theorem witness_FetchFollowsStraightLineCode :
    let s := { running [0x01, 255, 0x03, 0x02] [] with pc := 2 }
    s.program = assemble ([.push 255] ++ [.add]) ++ [0x02] ∧
      s.pc.toNat = (assemble [.push 255]).length := by decide

theorem witness_PushPrimitive :
    (capped 2 [] [1, 2]).config.stackCap = .finite (capped 2 [] [1, 2]).depth ∧
    (capped 3 [] [1, 2]).config.stackCap ≠ .finite (capped 3 [] [1, 2]).depth ∧
    (running [] [1, 2]).config.stackCap ≠ .finite (running [] [1, 2]).depth := by decide

theorem witness_PopPrimitive :
    (running [] []).stack = [] ∧ (running [] [1]).stack = [] ++ [1] ∧
    (running [] [1, 2]).stack = [1] ++ [2] := by decide

theorem witness_RequirePrimitive :
    (running [] []).stack.length < 1 ∧ 1 ≤ (running [] [5]).depth ∧
    (running [] [5]).stack.length < 2 ∧ (running [] [1, 2]).stack.length < 3 ∧
    3 ≤ (running [] [1, 2, 3]).depth := by decide

/-- The operand byte is the program's last one; there is room for exactly one value, or none; the Push
is the last byte. -/
theorem witness_PushInstruction :
    (let s := capped 3 [0x01, 5] [1, 2]
     s.pc.toNat + 1 < s.program.length ∧ s.hasRoom = true ∧ s.host = [] ∧ s.status = .running ∧
       s.program.drop s.pc.toNat = 0x01 :: 5 :: [] ∧ s.program.length < 2 ^ 32) ∧
    (let s := capped 2 [0x01, 5] [1, 2]
     s.pc.toNat + 1 < s.program.length ∧ s.config.stackCap = .finite s.depth) ∧
    (let s := capped 2 [0x01] [1, 2]
     s.program.length ≤ s.pc.toNat + 1 ∧ s.pendingCommand = none ∧ s.status = .running ∧
       s.program.drop s.pc.toNat = [0x01]) := by decide

theorem witness_PopInstruction :
    (running [0x02] [7]).stack = [] ++ [7] ∧ (running [0x02] []).stack = [] := by decide

theorem witness_ArithmeticInstructions :
    (let s := capped 2 [0x03] [2147483647, 1]
     s.stackFits = true ∧ s.stack = [] ++ [2147483647, 1]) ∧
    (running [0x04] [4]).stack = [4] ∧ (running [0x14] []).stack = [] := by decide

theorem witness_StoreInstruction :
    (let s := running [0x05] [3, 6, 0]
     s.stack = [3] ++ [6, 0] ∧ 0 ≤ (0 : Word).toInt ∧ (0 : Word).toInt < 256 ∧ s.mem.wf) ∧
    (let s := { running [0x05] [-5, 255] with mem := [(255, 1)] }
     s.stack = [] ++ [-5, 255] ∧ 0 ≤ (255 : Word).toInt ∧ (255 : Word).toInt < 256 ∧ s.mem.wf) ∧
    (256 : Int) ≤ (256 : Word).toInt ∧ (-1 : Word).toInt < 0 ∧
    (running [0x05] [300]).stack = [300] ∧ (running [0x05] []).stack = [] := by decide

theorem witness_LoadInstruction :
    (let s := capped 1 [0x06] [255]
     s.stack = [] ++ [255] ∧ s.stackFits = true ∧ 0 ≤ (255 : Word).toInt ∧ (255 : Word).toInt < 256) ∧
    (let s := capped 2 [0x06] [8, 256]
     s.stack = [8] ++ [256] ∧ s.stackFits = true ∧ (256 : Int) ≤ (256 : Word).toInt) ∧
    (-1 : Word).toInt < 0 ∧ (running [0x06] []).stack = [] := by decide

/-- The target is 0, `L - 1`, `L` and -1. -/
theorem witness_JmpInstruction :
    (let s := running [0x07, 2, 2] [9, 2]
     s.stack = [9] ++ [2] ∧ 0 ≤ (2 : Word).toInt ∧ (2 : Word).toInt < s.program.length ∧
       0 ≤ (0 : Word).toInt ∧ (0 : Word).toInt < s.program.length ∧
       (s.program.length : Int) ≤ (3 : Word).toInt ∧ (-1 : Word).toInt < 0) ∧
    (running [0x07] []).stack = [] := by decide

theorem witness_JumpIfInstruction :
    (let s := running [0x08, 2, 2] [9, 2, -1]
     s.stack = [9] ++ [2, -1] ∧ 0 ≤ (2 : Word).toInt ∧ (2 : Word).toInt < s.program.length ∧
       (-1 : Word) ≠ 0 ∧ (s.program.length : Int) ≤ (3 : Word).toInt ∧ (-1 : Word).toInt < 0) ∧
    (running [0x08] [2, 0]).stack = [] ++ [2, 0] ∧
    (running [0x08] [1]).stack = [1] ∧ (running [0x08] []).stack = [] := by decide

theorem witness_DupInstruction :
    (let s := capped 2 [0x09] [5]
     s.stack = [] ++ [5] ∧ s.hasRoom = true) ∧
    (let s := capped 1 [0x09] [5]
     s.stack = [] ++ [5] ∧ s.config.stackCap = .finite s.depth) ∧
    (running [0x09] []).stack = [] := by decide

theorem witness_SwapInstruction :
    (capped 2 [0x10] [1, 2]).stack = [] ++ [1, 2] ∧ (running [0x10] [1]).stack.length < 2 := by decide

theorem witness_RotInstruction :
    (capped 3 [0x11] [1, 2, 3]).stack = [] ++ [1, 2, 3] ∧ 3 ≤ (running [0x11] [1, 2, 3]).stack.length ∧
    (running [0x11] [1, 2]).stack.length < 3 := by decide

theorem witness_OverInstruction :
    (let s := capped 3 [0x12] [1, 2]
     s.stack = [] ++ [1, 2] ∧ s.hasRoom = true) ∧
    (let s := capped 2 [0x12] [1, 2]
     s.stack = [] ++ [1, 2] ∧ s.config.stackCap = .finite s.depth) ∧
    (running [0x12] [1]).stack.length < 2 := by decide

/-- `n` is 1, `d' - 1`, `d'`, 0 and -1, for `d' = 2` and, below, `d' = 0`. -/
theorem witness_PickInstruction :
    (let s := capped 3 [0x13] [7, 8, 1]
     s.stack = [7, 8] ++ [1] ∧ s.stackFits = true ∧ 1 ≤ (1 : Word).toInt ∧
       (1 : Word).toInt < ([7, 8] : List Word).length ∧
       ((([7, 8] : List Word).length : Nat) : Int) ≤ (2 : Word).toInt ∧
       (0 : Word).toInt < 1 ∧ (-1 : Word).toInt < 1) ∧
    (running [0x13] [2]).stack = [] ++ [2] ∧ (running [0x13] []).stack = [] := by decide

theorem witness_OnlyStoreChangesMemory :
    (∃ t, exec .add (running [0x03] [5, 3]) = .next t) ∧ Instr.add ≠ .store ∧
    (∃ t, exec .store (running [0x05] [5, 3]) = .next t) := ⟨⟨_, rfl⟩, by decide, ⟨_, rfl⟩⟩

/-- A Store that completes, and one that raises an error, where `pc` has not moved. -/
theorem witness_StoreChangesOneWord :
    (∃ t, Memory.wf (running [0x05] [5, 255]).mem ∧ exec .store (running [0x05] [5, 255]) = .next t ∧
      (running [0x05] [5, 255]).stack.getLast? = some 255) ∧
    (∃ t, exec .store (running [0x05] [5, 256]) = .next t ∧ t.pc = (running [0x05] [5, 256]).pc) :=
  ⟨⟨_, by decide, rfl, by decide⟩, ⟨_, rfl, by decide⟩⟩

theorem witness_CompletesOrRaisesPrecisely :
    (capped 1 [0x09] [5]).stackFits = true ∧ (running [0x09] [5]).stackFits = true := by decide

/-- A completed and a failing instruction, and bytes that are no instruction. -/
theorem witness_PcAfterInstruction :
    (∃ t, (running [0x08, 2] [1, 0]).status = .running ∧
      exec .jumpIf (running [0x08, 2] [1, 0]) = .next t ∧ t.status = .running) ∧
    (∃ t, exec .jmp (running [0x07, 2] [2]) = .next t ∧ t.status = .haltedErr) ∧
    (∃ t, noInstruction (.invalidOpcode 0x0A) (running [0x0A] []) = .next t) :=
  ⟨⟨_, by decide, rfl, by decide⟩, ⟨_, rfl, by decide⟩, ⟨_, rfl⟩⟩

theorem witness_NoOverflowWithoutCapacity :
    ∃ t, (running [0x09] [5]).config.stackCap = .inf ∧ (running [0x09] [5]).pendingCommand = none ∧
      (running [0x09] [5]).status = .running ∧ (running [0x09] [5]).err ≠ 8 ∧
      step (running [0x09] [5]) = .next t := ⟨_, by decide, by decide, by decide, by decide, rfl⟩

theorem witness_FiniteCapacityRefinesReference :
    (∃ t, exec .dup (capped 1 [0x09] [5]) = .next t ∧ t.err = 8) ∧
    (∃ t, exec .dup (capped 2 [0x09] [5]) = .next t ∧ t.err = 0) :=
  ⟨⟨_, rfl, by decide⟩, ⟨_, rfl, by decide⟩⟩

theorem witness_StackBelowOperandsIsIrrelevant :
    ∃ t, (running [0x11] [1, 2, 3]).config.stackCap = .inf ∧
      (running [0x11] [1, 2, 3]).status = .running ∧
      exec .rot (running [0x11] [1, 2, 3]) = .next t ∧ t.status = .running :=
  ⟨_, by decide, by decide, rfl, by decide⟩

theorem witness_OnlyLoadReadsMemory :
    ∃ t, Instr.store ≠ .load ∧ exec .store (running [0x05] [1, 2]) = .next t := ⟨_, by decide, rfl⟩

/-- Store 6 to address 255, then Push 255, then a Load: the program `05 01 FF 06`. -/
theorem witness_LoadReturnsLastStore :
    ∃ t u : State, (running [0x05, 0x01, 0xFF, 0x06] [6, 255]).mem.wf ∧
      (running [0x05, 0x01, 0xFF, 0x06] [6, 255]).storesNext = some (255, 6) ∧
      step (running [0x05, 0x01, 0xFF, 0x06] [6, 255]) = .next t ∧ ReachedKeeping 255 t u ∧
      u.stack = [] ++ [255] ∧ (255 : Word).toInt = (255 : Nat) ∧ 255 < 256 ∧ u.stackFits = true :=
  ⟨_, { running [0x05, 0x01, 0xFF, 0x06] [255] with pc := 3, mem := [(255, 6)] }, by decide, by decide,
    rfl, .more _ _ _ rfl (by decide) (fun v h => by cases h) (.here _), by decide, by decide, by decide,
    by decide⟩

/-- The other case: a RESET. -/
theorem witness_LoadReturnsLastStore_after_reset :
    ({ running [] [1] with host := [some .reset] }).pendingCommand = some .reset := by decide

theorem witness_CanonicalMemoryIsDeterminedByReads :
    Memory.wf [(0, 5), (255, -1)] ∧ ∀ a : Nat, Memory.read [(0, 5), (255, -1)] a =
      Memory.read [(0, 5), (255, -1)] a := ⟨by decide, fun _ => rfl⟩

theorem witness_StepRunsDecodedInstruction :
    (let s := { running [0x02, 0x01, 9] [3] with pc := 1 }
     s.pendingCommand = none ∧ s.status = .running ∧
       decode (s.program.drop s.pc.toNat) = .ok (.push 9, [])) ∧
    (let s := { running [0x02] [1] with pc := 1 }
     s.pendingCommand = none ∧ s.status = .running ∧ s.program.length ≤ s.pc.toNat) ∧
    (let s := { running [0x02, 0xFF] [1] with pc := 1, host := [none, some .reset] }
     s.pendingCommand = none ∧ s.status = .running ∧ s.program[s.pc.toNat]? = some 0xFF ∧
       decodeOpcode 0xFF = none) := by decide

theorem witness_DecoderIsTotalAndRaisesInvalidOpcode :
    let s := { running [0x02, 0x15] [1] with pc := 1 }
    s.host = [] ∧ s.status = .running ∧ s.program.drop s.pc.toNat = 0x15 :: [] ∧
      decodeOpcode 0x15 = none := by decide

theorem witness_NoStepUnlessRunning :
    State.reset.pendingCommand = none ∧ State.reset.status ≠ .running := by decide

theorem witness_StepAnswersNextState :
    (running [0x02] []).config.admits (running [0x02] []).program = true ∧
    (running [0x02] []).hostKeepsProgram := ⟨by decide, fun _ h => by cases h⟩

/-- A step of each case: RESET, START, a program, no command while RUNNING at `pc = L` and before it,
and no command while not RUNNING. -/
theorem witness_StatusTransitions :
    (∃ t, step { running [] [] with host := [some .reset] } = .next t) ∧
    (∃ t, step { State.reset with host := [some .start] } = .next t) ∧
    (∃ t, step { State.reset with host := [some (.present [])] } = .next t) ∧
    (∃ t, step (running [] []) = .next t) ∧ (∃ t, step (running [0x02] []) = .next t) ∧
    (∃ t, step (running [0x01, 1] []) = .next t) ∧ (∃ t, step State.reset = .next t) :=
  ⟨⟨_, rfl⟩, ⟨_, rfl⟩, ⟨_, rfl⟩, ⟨_, rfl⟩, ⟨_, rfl⟩, ⟨_, rfl⟩, ⟨_, rfl⟩⟩

theorem witness_ErrIsWrittenInTwoPlaces :
    (∃ t, step (running [0x02] []) = .next t ∧ t.err ≠ (running [0x02] []).err) ∧
    (∃ t, step { State.reset with status := .haltedErr, err := 8, host := [some .start] } = .next t ∧
      t.err ≠ 8) := ⟨⟨_, rfl, by decide⟩, ⟨_, rfl, by decide⟩⟩

/-- A state at the edges of the invariant: a full stack, memory listed at 0 and 255, the longest error
code. -/
theorem witness_Inv :
    ({ capped 2 [0x01, 1] [1, 2] with
        mem := [(0, 5), (255, -1)], status := .haltedErr, err := 8 }).Inv :=
  ⟨by decide, by decide, by decide, by decide, by decide, by decide⟩

theorem witness_StepKeepsInvariant :
    ∃ t, (capped 2 [0x01, 1] [1, 2]).Inv ∧ step (capped 2 [0x01, 1] [1, 2]) = .next t :=
  ⟨_, ⟨by decide, by decide, by decide, by decide, by decide, by decide⟩, rfl⟩

/-- A Push at `L - 2`. -/
theorem witness_PcStaysWithinProgram :
    ∃ t, (running [0x01, 1] []).Inv ∧ (running [0x01, 1] []).hostKeepsProgram ∧
      (running [0x01, 1] []).pcWithinProgram ∧ step (running [0x01, 1] []) = .next t ∧
      (running [0x01, 1] []).pendingCommand = none ∧ (running [0x01, 1] []).status = .running ∧
      t.status = .running ∧ Instr.push 1 ≠ .jmp ∧ Instr.push 1 ≠ .jumpIf ∧
      decode ((running [0x01, 1] []).program.drop (running [0x01, 1] []).pc.toNat) =
        .ok (.push 1, []) :=
  ⟨_, ⟨by decide, by decide, by decide, by decide, by decide, by decide⟩, fun _ h => (by cases h),
    Nat.zero_le _, rfl, by decide, by decide, by decide, by decide, by decide, by decide⟩

theorem witness_ResetCommand :
    ({ running [0x02] [1] with host := [some .reset], mem := [(3, 2)] }).pendingCommand =
      some .reset := by decide

/-- START when not RUNNING, at `pc = L`; and while RUNNING. -/
theorem witness_StartCommand :
    (let s := { running [0x02] [1] with status := .haltedErr, err := 1, pc := 1, host := [some .start] }
     s.pendingCommand = some .start ∧ s.status ≠ .running ∧ s.program.length ≤ s.pc.toNat ∧
       s.host.tail = [] ∧ ∃ t, step s = .next t) ∧
    (let s := { running [0x02] [1] with host := [some .start] }
     s.pendingCommand = some .start ∧ s.status = .running) :=
  ⟨⟨by decide, by decide, by decide, by decide, ⟨_, rfl⟩⟩, by decide⟩

/-- The Jmp of program P9 of 95_test_vectors.md, with START as the host's next command. -/
theorem witness_ResumeRunsFailingInstructionAgain :
    let s := { running [0x01, 5, 0x07, 0x01, 2] [5] with pc := 2, host := [none, some .start] }
    ∃ t, s.pendingCommand = none ∧ s.status = .running ∧
      decode (s.program.drop s.pc.toNat) = .ok (.jmp, [0x01, 2]) ∧ step s = .next t ∧
      t.status = .haltedErr ∧ t.host = [some .start] :=
  ⟨_, by decide, by decide, by decide, rfl, by decide, by decide⟩

/-- A state whose PROG_LEN_MAX is 2. -/
def shortProgram (status : Status) (host : List (Option HostCommand)) : State :=
  { State.reset with
    program := [2, 2], status := status, host := host, config := { stackCap := .inf, progLenMax := 2 } }

/-- The longest program taken while IDLE, the same program while RUNNING, another one while RUNNING, and
one that is too long. -/
theorem witness_PresentProgramCommand :
    (let s := shortProgram .idle [some (.present [3, 3])]
     s.pendingCommand = some (.present [3, 3]) ∧ ([3, 3] : List Byte).length ≤ s.config.progLenMax ∧
       (s.status = .running → ([3, 3] : List Byte) = s.program)) ∧
    (let s := shortProgram .running [some (.present [2, 2])]
     s.pendingCommand = some (.present [2, 2]) ∧ ([2, 2] : List Byte).length ≤ s.config.progLenMax ∧
       (s.status = .running → ([2, 2] : List Byte) = s.program)) ∧
    (let s := shortProgram .running [some (.present [2])]
     s.pendingCommand = some (.present [2]) ∧ s.status = .running ∧ ([2] : List Byte) ≠ s.program) ∧
    (let s := shortProgram .idle [some (.present [2, 2, 2])]
     s.pendingCommand = some (.present [2, 2, 2]) ∧
       s.config.progLenMax < ([2, 2, 2] : List Byte).length ∧
       (s.status = .running → ([2, 2, 2] : List Byte) = s.program)) := by decide

theorem witness_ReadBackWhileNotRunning :
    let s := { State.reset with stack := [7, 8], mem := [(255, 1)] }
    s.status ≠ .running ∧ s.stack[0]? = some 7 ∧ s.stack[1]? = some 8 := by decide

theorem witness_DepthPortFits :
    (0 < 1 ∧ (capped 1 [] [5]).config.stackCap = .finite 1 ∧ (capped 1 [] [5]).stackFits = true) ∧
    (0 < 3 ∧ (capped 3 [] [1, 2, 3]).config.stackCap = .finite 3 ∧
      (capped 3 [] [1, 2, 3]).stackFits = true) ∧
    (capped 4 [] [1, 2, 3, 4]).stackFits = true := by decide

theorem witness_StepRunsPlacedWord :
    decodeTableWord 16 0xFF01 = some (.push 255) ∧ decodeTableWord 8 0x01 = some (.push 0) ∧
    decodeTableWord 8 0x14 = some .mul := by decide

theorem witness_AddressCheckerNeverWraps :
    inBounds 0 = true ∧ inBounds 255 = true ∧ dataAddress 255 = dataAddress 255 := by decide

theorem witness_ResetPresentStartBoots :
    let s := shortProgram .running [some .reset, some (.present [3, 3]), some .start]
    s.host = [some .reset, some (.present [3, 3]), some .start] ∧
      ([3, 3] : List Byte).length ≤ s.config.progLenMax := by decide

/-! ### The first instruction after reset, on a word of the opcode table -/

theorem test_first_step_after_reset :
    seen (step (State.reset.withFetchWord 16 0x0501)) = some ([5], 2, 0) ∧
    seen (step (State.reset.withFetchWord 8 0x09)) = some ([], 0, 2) := by decide

end Sys2Proof.Tests
end

section
/-! PROOFS. The stack primitives (10_state.md R28 to R30). -/

namespace Sys2Proof.Machine

/-- The one condition under which `push` raises, in the words of R28. -/
theorem State.full_iff (s : State) : s.full = true ↔ s.config.stackCap = .finite s.depth := by
  unfold State.full
  cases s.config.stackCap with
  | inf => simp
  | finite n => simp [eq_comm (a := n)]

/-- Settles O7: `full` is exactly the premise of the raising clause, so its negation leaves room. -/
theorem pushPrimitive : Obligations.PushPrimitive := by
  intro v s next
  constructor
  · intro hcap
    exact push_full (s.full_iff.mpr hcap)
  · intro hcap
    exact push_room (Bool.eq_false_iff.mpr (mt s.full_iff.mp hcap))

/-- Settles O8, by the two shapes of the stack. -/
theorem popPrimitive : Obligations.PopPrimitive := by
  intro s next
  exact ⟨pop_empty, fun _ _ htop => pop_append htop⟩

/-- Settles O9, by the two outcomes of the depth check. -/
theorem requirePrimitive : Obligations.RequirePrimitive := by
  intro k e s next
  exact ⟨require_fails, require_met⟩

end Sys2Proof.Machine
end

section
/-! PROOFS. The memory address checker (20_memory.md R36, R37). -/

namespace Sys2Proof.Machine

/-- An address in bounds names the word of its own signed value: it is not negative, so the signed and
the unsigned reading agree. -/
theorem dataAddress_eq_toInt_of_inBounds {a : Word} (h : inBounds a = true) :
    (dataAddress a : Int) = a.toInt := by
  obtain ⟨hnonneg, -⟩ := (inBounds_iff a).mp h
  exact toNat_of_toInt_nonneg hnonneg

/-- No bit of an address is dropped: the word it names determines all 32 bits. -/
theorem dataAddress_injective : Function.Injective dataAddress :=
  fun _ _ h => BitVec.eq_of_toNat_eq h

/-- Settles O50: the signed comparison decides the bounds, and the four values of R37 are evaluated. -/
theorem addressCheckerNeverWraps : Obligations.AddressCheckerNeverWraps := by
  refine ⟨inBounds_iff, fun _ => dataAddress_eq_toInt_of_inBounds,
    fun _ _ _ _ h => dataAddress_injective h, ?_⟩
  decide

end Sys2Proof.Machine
end

section
/-! PROOFS. Decoding against encoding, and the length of an instruction (30_encoding.md R48 to R52). -/

namespace Sys2Proof

/-- Every instruction has the shape that Laws/PerInstr.lean states of each constructor. -/
theorem encode_shape (i : Instr) : Laws.EncodingShape.Statement i := by
  cases i <;> exact ⟨rfl, rfl⟩

/-- What decodes to an instruction begins with that instruction's bytes: an opcode byte is its tag's
byte, and only Push takes a further one. -/
theorem eq_encode_append_of_decode {bs rest : List Byte} {i : Instr}
    (h : decode bs = .ok (i, rest)) : bs = encode i ++ rest := by
  cases bs with
  | nil => cases h
  | cons b tail =>
    cases ho : decodeOpcode b with
    | none => rw [decode_invalid ho] at h; cases h
    | some o =>
      obtain rfl := eq_byte_of_decodeOpcode ho
      cases o
      case push =>
        cases tail with
        | nil => cases h
        | cons imm8 tail => cases h; rfl
      all_goals cases h; rfl

/-- The length of R50, read off the opcode byte. -/
theorem Opcode.length_eq (o : Opcode) : o.length = if o.byte = 0x01 then 2 else 1 := by
  cases o <;> rfl

/-- Settles O5: the bytes decoded are the instruction's encoding, which begins with the byte of its
opcode and has the length that this byte tells. -/
theorem lengthFollowsFromOpcodeByte : Obligations.LengthFollowsFromOpcodeByte := by
  refine ⟨fun b bs i rest hdec => ?_, fun b bs hinv => decode_invalid hinv bs⟩
  obtain ⟨hhead, hlen⟩ := encode_shape i
  have hbytes := eq_encode_append_of_decode hdec
  have hb : b = i.opcode.byte := by
    simpa [hhead] using congrArg List.head? hbytes
  calc (b :: bs).length
      = i.opcode.length + rest.length := by rw [hbytes, List.length_append, hlen]
    _ = rest.length + i.opcode.length := Nat.add_comm ..
    _ = rest.length + (if b = 0x01 then 2 else 1) := by rw [Opcode.length_eq, hb]

end Sys2Proof
end

section
/-! PROOFS. The opcode map, and InvalidOpcode as a step of the machine (30_encoding.md R52, R54). -/

namespace Sys2Proof

/-- A row of the opcode map is a tag with the encoder's byte for it. -/
theorem mem_opcodeMap (b : Byte) (o : Opcode) : (b, o) ∈ opcodeMap ↔ b = o.byte := by
  cases o <;> simp [opcodeMap, Opcode.byte]

namespace Machine

variable {s : State}

/-- A running CORE with a byte at `pc` that is no opcode raises InvalidOpcode, at any step boundary at
which the host does nothing. -/
theorem step_invalidOpcode {b : Byte} {rest : List Byte} (hcmd : s.pendingCommand = none)
    (hrun : s.status = .running) (hbytes : s.bytesAtPc = b :: rest) (hinv : decodeOpcode b = none) :
    step s = .next (s.afterBoundary.raised .invalidOpcode) := by
  have hdec : decode s.afterBoundary.bytesAtPc = .error (.invalidOpcode b) := by
    rw [State.afterBoundary_bytesAtPc, hbytes, decode_invalid hinv]
  rw [step_running hcmd hrun, coreStep_error hdec]
  rfl

theorem State.pendingCommand_of_host_nil (h : s.host = []) : s.pendingCommand = none := by
  simp [State.pendingCommand, h]

theorem State.afterBoundary_of_host_nil (h : s.host = []) : s.afterBoundary = s := by
  rw [State.afterBoundary, h, List.tail_nil, ← h]
  rfl

/-- Settles O35: the tags are the rows of the opcode map, and with nothing to come from the host the
step of an invalid byte changes `status` and `err` alone. -/
theorem decoderIsTotalAndRaisesInvalidOpcode :
    Obligations.DecoderIsTotalAndRaisesInvalidOpcode := by
  constructor
  · intro b o
    exact (decodeOpcode_eq_some b o).trans (mem_opcodeMap b o).symm
  · intro s b rest hhost hrun hbytes hinv
    rw [step_invalidOpcode (State.pendingCommand_of_host_nil hhost) hrun hbytes hinv,
      State.afterBoundary_of_host_nil hhost]
    rfl

end Machine
end Sys2Proof
end

section
/-! PROOFS. `pc` after an instruction (30_encoding.md R58). -/

namespace Sys2Proof.Machine

/-- An instruction started in `s` answers `r` by the table of R58: it completes at a `pc` that
satisfies `Done`, or it halts the CORE on an error at its own opcode byte. -/
def PcOutcome (s : State) (Done : BitVec 32 → Prop) (r : Result) : Prop :=
  ∃ t, r = .next t ∧
    ((t.status = s.status ∧ Done t.pc) ∨ (t.status = .haltedErr ∧ t.pc = s.pc))

variable {s t u : State} {Done : BitVec 32 → Prop} {r : Result}

/-- An error leaves `pc` where the state it is raised in has it. -/
theorem PcOutcome.raised {e : ErrorKind} (hr : r = .next (u.raised e)) (hpc : u.pc = s.pc) :
    PcOutcome s Done r :=
  ⟨u.raised e, hr, .inr ⟨rfl, hpc⟩⟩

/-- The sequencer's write of `pc` ends an instruction that completes. -/
theorem PcOutcome.completed {p : BitVec 32} (hr : r = .next (u.withPc p))
    (hstatus : u.status = s.status) (hp : Done p) : PcOutcome s Done r :=
  ⟨u.withPc p, hr, .inl ⟨hstatus, hp⟩⟩

theorem PcOutcome.of_next (h : PcOutcome s Done r) (hr : r = .next t) :
    (t.status = s.status ∧ Done t.pc) ∨ (t.status = .haltedErr ∧ t.pc = s.pc) := by
  obtain ⟨v, hv, hcases⟩ := h
  cases hv.symm.trans hr
  exact hcases

variable (s)

theorem execPush_pc (imm8 : Byte) : PcOutcome s (· = s.pc + 2) (execPush imm8 s) :=
  execPush_cases s imm8
    (missing := fun _ h => .raised h rfl)
    (full := fun _ _ h => .raised h rfl)
    (done := fun _ _ h => .completed h rfl rfl)

theorem execPop_pc : PcOutcome s (· = s.pc + 1) (execPop s) :=
  execPop_cases s
    (empty := fun _ h => .raised h rfl)
    (done := fun _ _ _ h => .completed h rfl rfl)

theorem binOp_pc (f : Int → Int → Int) : PcOutcome s (· = s.pc + 1) (binOp f s) :=
  binOp_cases s f
    (empty := fun _ h => .raised h rfl)
    (one := fun _ _ h => .raised h rfl)
    (full := fun _ _ _ _ _ h => .raised h rfl)
    (done := fun _ _ _ _ _ h => .completed h rfl rfl)

theorem execStore_pc : PcOutcome s (· = s.pc + 1) (execStore s) :=
  execStore_cases s
    (empty := fun _ h => .raised h rfl)
    (one := fun _ _ h => .raised h rfl)
    (outside := fun _ _ _ _ _ h => .raised h rfl)
    (done := fun _ _ _ _ _ h => .completed h rfl rfl)

theorem execLoad_pc : PcOutcome s (· = s.pc + 1) (execLoad s) :=
  execLoad_cases s
    (empty := fun _ h => .raised h rfl)
    (outside := fun _ _ _ _ h => .raised h rfl)
    (full := fun _ _ _ _ _ h => .raised h rfl)
    (done := fun _ _ _ _ _ h => .completed h rfl rfl)

/-- The target is the value that was on top. -/
theorem execJmp_pc :
    PcOutcome s (fun p => ∃ r target, s.stack = r ++ [target] ∧ p = target) (execJmp s) :=
  execJmp_cases s
    (empty := fun _ h => .raised h rfl)
    (invalid := fun _ _ _ _ h => .raised h rfl)
    (done := fun r target hs _ h => .completed h rfl ⟨r, target, hs, rfl⟩)

/-- JumpIf's condition as a test of the word itself. -/
theorem condTaken_iff_ne_zero (c : Word) : condTaken c = true ↔ c ≠ 0 := by
  simp [condTaken_iff, ← BitVec.toInt_inj]

/-- The condition was on top and the target below it. -/
theorem execJumpIf_pc :
    PcOutcome s
      (fun p => ∃ r target cond, s.stack = r ++ [target, cond] ∧
        p = if cond = 0 then s.pc + 1 else target) (execJumpIf s) :=
  execJumpIf_cases s
    (empty := fun _ h => .raised h rfl)
    (one := fun _ _ h => .raised h rfl)
    (invalid := fun _ _ _ _ _ h => .raised h rfl)
    (taken := fun r target cond hs _ hc h =>
      have hne : cond ≠ 0 := (condTaken_iff_ne_zero cond).mp hc
      .completed h rfl ⟨r, target, cond, hs, (if_neg hne).symm⟩)
    (untaken := fun r target cond hs _ hc h =>
      have hzero : cond = 0 := by simpa [hc] using condTaken_iff_ne_zero cond
      .completed h rfl ⟨r, target, cond, hs, (if_pos hzero).symm⟩)

theorem execDup_pc : PcOutcome s (· = s.pc + 1) (execDup s) :=
  execDup_cases s
    (empty := fun _ h => .raised h rfl)
    (full := fun _ _ _ _ h => .raised h rfl)
    (done := fun _ _ _ _ h => .completed h rfl rfl)

theorem execSwap_pc : PcOutcome s (· = s.pc + 1) (execSwap s) :=
  execSwap_cases s
    (short := fun _ h => .raised h rfl)
    (done := fun _ _ _ _ h => .completed h rfl rfl)

theorem execRot_pc : PcOutcome s (· = s.pc + 1) (execRot s) :=
  execRot_cases s
    (short := fun _ h => .raised h rfl)
    (done := fun _ _ _ _ _ h => .completed h rfl rfl)

theorem execOver_pc : PcOutcome s (· = s.pc + 1) (execOver s) :=
  execOver_cases s
    (short := fun _ h => .raised h rfl)
    (full := fun _ _ _ _ _ h => .raised h rfl)
    (done := fun _ _ _ _ _ h => .completed h rfl rfl)

theorem execPick_pc : PcOutcome s (· = s.pc + 1) (execPick s) :=
  execPick_cases s
    (empty := fun _ h => .raised h rfl)
    (outside := fun _ _ _ _ h => .raised h rfl)
    (full := fun _ _ _ _ _ _ h => .raised h rfl)
    (done := fun _ _ _ _ _ _ _ _ h => .completed h rfl rfl)

/-- Where there is no instruction at `pc`, `pc` stays, at the end of the program as at an error. -/
theorem noInstruction_pc (e : DecodeError) (s : State) :
    ∃ t, noInstruction e s = .next t ∧ t.pc = s.pc := by
  cases e <;> exact ⟨_, rfl, rfl⟩

/-- Settles O27, instruction by instruction. -/
theorem pcAfterInstruction : Obligations.PcAfterInstruction := by
  constructor
  · intro i s t hrun hexec
    rw [← hrun]
    cases i with
    | push imm8 => exact (execPush_pc s imm8).of_next hexec
    | pop => exact (execPop_pc s).of_next hexec
    | add => exact (binOp_pc s _).of_next hexec
    | sub => exact (binOp_pc s _).of_next hexec
    | store => exact (execStore_pc s).of_next hexec
    | load => exact (execLoad_pc s).of_next hexec
    | jmp => exact (execJmp_pc s).of_next hexec
    | jumpIf => exact (execJumpIf_pc s).of_next hexec
    | dup => exact (execDup_pc s).of_next hexec
    | swap => exact (execSwap_pc s).of_next hexec
    | rot => exact (execRot_pc s).of_next hexec
    | overNos => exact (execOver_pc s).of_next hexec
    | pick => exact (execPick_pc s).of_next hexec
    | mul => exact (binOp_pc s _).of_next hexec
  · intro e s t hnone
    obtain ⟨u, hu, hpc⟩ := noInstruction_pc e s
    cases hu.symm.trans hnone
    exact hpc

end Sys2Proof.Machine
end

section
/-! PROOFS. A step of a RUNNING CORE at a boundary at which the host does nothing, by what the bytes at
`pc` decode to (30_encoding.md R60). -/

namespace Sys2Proof.Machine

variable {s : State}

theorem step_of_decode_ok {i : Instr} {rest : List Byte} (hcmd : s.pendingCommand = none)
    (hrun : s.status = .running) (hdec : decode s.bytesAtPc = .ok (i, rest)) :
    step s = exec i s.afterBoundary := by
  rw [step_running hcmd hrun, coreStep_ok (by rwa [State.afterBoundary_bytesAtPc])]

theorem step_of_decode_error {e : DecodeError} (hcmd : s.pendingCommand = none)
    (hrun : s.status = .running) (hdec : decode s.bytesAtPc = .error e) :
    step s = noInstruction e s.afterBoundary := by
  rw [step_running hcmd hrun, coreStep_error (by rwa [State.afterBoundary_bytesAtPc])]

/-- At the end of the program the run ends successfully. -/
theorem step_endOfProgram (hcmd : s.pendingCommand = none) (hrun : s.status = .running)
    (hend : s.progLen ≤ s.pc.toNat) :
    step s = .next (s.afterBoundary.withStatus .haltedOk s.err) := by
  have hdec : decode s.bytesAtPc = .error .endOfBytes := by
    rw [State.bytesAtPc_eq_nil.mpr hend, decode_nil]
  exact step_of_decode_error hcmd hrun hdec

/-- With nothing to come from the host, the end of the program changes `status` alone. -/
theorem step_endOfProgram_of_host_nil (hhost : s.host = []) (hrun : s.status = .running)
    (hend : s.progLen ≤ s.pc.toNat) : step s = .next (s.withStatus .haltedOk s.err) := by
  rw [step_endOfProgram (State.pendingCommand_of_host_nil hhost) hrun hend,
    State.afterBoundary_of_host_nil hhost]

end Sys2Proof.Machine
end

section
/-! PROOFS. The stack instructions (40_stack.md R64, R65). -/

namespace Sys2Proof.Machine

variable {s : State}

/-- A zero-extended byte is never negative. -/
theorem toInt_zext32 (b : Byte) : (zext32 b).toInt = b.toNat := by
  rw [zext32, BitVec.toInt_setWidth, Int.bmod_eq_of_le] <;> omega

theorem operandPresent_eq_false_iff (pc : BitVec 32) (l : Nat) :
    operandPresent pc l = false ↔ l ≤ pc.toNat + 1 := by
  rw [Bool.eq_false_iff, Ne, operandPresent_iff, Nat.not_lt]

/-- The program ends after the two bytes at `pc` and `rest`. -/
theorem State.progLen_of_bytesAtPc {b c : Byte} {rest : List Byte}
    (h : s.bytesAtPc = b :: c :: rest) : s.progLen = s.pc.toNat + 2 + rest.length := by
  have hlen := congrArg List.length h
  simp only [State.bytesAtPc, List.length_drop, List.length_cons] at hlen
  unfold State.progLen
  omega

/-- The operand check of R64 agrees with the decoder: a byte after the opcode passes it. -/
theorem operandPresent_of_bytesAtPc {b c : Byte} {rest : List Byte}
    (h : s.bytesAtPc = b :: c :: rest) : operandPresent s.pc s.progLen = true := by
  rw [operandPresent_iff, State.progLen_of_bytesAtPc h]
  omega

/-- A Push whose operand is the program's last byte ends with `pc` at the program's end: `pc` does not
wrap, as the program has a length that `pc` can hold. -/
theorem State.progLen_le_pc_add_two {b c : Byte} (h : s.bytesAtPc = [b, c])
    (hlen : s.progLen < 2 ^ 32) : s.progLen ≤ (s.pc + 2).toNat := by
  have hend : s.progLen = s.pc.toNat + 2 := State.progLen_of_bytesAtPc h
  have hpc : (s.pc + 2).toNat = s.pc.toNat + 2 :=
    BitVec.toNat_add_of_lt (y := 2) (lt_of_eq_of_lt hend.symm hlen)
  rw [hend, hpc]

/-- A Push with its operand byte and room on the stack, as a step of the machine. -/
theorem step_push {imm8 : Byte} {rest : List Byte} (hcmd : s.pendingCommand = none)
    (hrun : s.status = .running) (hroom : s.hasRoom = true)
    (hbytes : s.bytesAtPc = 0x01 :: imm8 :: rest) :
    step s = .next ((s.afterBoundary.withStack (s.stack ++ [zext32 imm8])).withPc (s.pc + 2)) := by
  have hdec : decode s.bytesAtPc = .ok (.push imm8, rest) := by
    rw [hbytes]
    exact decode_push imm8 rest
  rw [step_of_decode_ok hcmd hrun hdec]
  exact execPush_done (s := s.afterBoundary) (operandPresent_of_bytesAtPc hbytes)
    (State.full_eq_false_of_hasRoom hroom)

/-- A Push with no operand byte raises in the step that decodes it. -/
theorem step_push_missing (hcmd : s.pendingCommand = none) (hrun : s.status = .running)
    (hbytes : s.bytesAtPc = [0x01]) :
    step s = .next (s.afterBoundary.raised .invalidProgramCounter) := by
  have hdec : decode s.bytesAtPc = .error .operandMissing := by
    rw [hbytes]
    exact decode_push_missing
  exact step_of_decode_error hcmd hrun hdec

/-- Settles O12: the operand check decides first, then the capacity; a step reaches them with the operand
byte there, and the one at the program's end leaves `pc` where the next step halts. -/
theorem pushInstruction : Obligations.PushInstruction := by
  refine ⟨decode_push, toInt_zext32, fun imm8 s hop => ?_, fun imm8 s hmissing => ?_,
    fun s hcmd hrun hbytes => step_push_missing hcmd hrun hbytes,
    fun imm8 rest s hhost hrun hroom hbytes => ⟨?_, fun hrest hlen => ?_⟩⟩
  · have hop : operandPresent s.pc s.progLen = true := (operandPresent_iff _ _).mpr hop
    exact ⟨fun hroom => execPush_done hop (State.full_eq_false_of_hasRoom hroom),
      fun hcap => execPush_full hop (State.full_of_stackCap hcap)⟩
  · exact execPush_missing ((operandPresent_eq_false_iff _ _).mpr hmissing)
  · rw [step_push (State.pendingCommand_of_host_nil hhost) hrun hroom hbytes,
      State.afterBoundary_of_host_nil hhost]
    rfl
  · subst hrest
    exact step_endOfProgram_of_host_nil
      (s := (s.withStack (s.stack ++ [zext32 imm8])).withPc (s.pc + 2)) hhost hrun
      (State.progLen_le_pc_add_two hbytes hlen)

/-- Settles O13, by the two shapes of the stack. -/
theorem popInstruction : Obligations.PopInstruction :=
  ⟨fun _ => rfl, fun _ _ _ htop => execPop_done htop, fun _ hempty => execPop_empty hempty⟩

end Sys2Proof.Machine
end

section
/-! PROOFS. The arithmetic instructions (41_arithmetic.md R66 to R70). -/

namespace Sys2Proof.Machine

/-- An instruction that the ALU dispatch engine runs obeys its law: within the capacity the two pops
make room for the push of the result. -/
theorem aluLaw_of_exec_eq_binOp {i : Instr} {b : Byte} {f : Int → Int → Int}
    (hdec : ∀ rest, decode (b :: rest) = .ok (i, rest)) (hexec : ∀ s, exec i s = binOp f s) :
    AluLaw i b f := by
  refine ⟨hdec, fun s r x y hfits hs => ?_, fun s x hs => ?_, fun s hs => ?_⟩
  · have hroom : (s.withStack r).full = false :=
      State.full_withStack_of_stackFits hfits (by simp [State.depth, hs])
    exact (hexec s).trans (binOp_done hs hroom)
  · exact (hexec s).trans (binOp_one hs)
  · exact (hexec s).trans (binOp_empty hs)

/-- Settles O14: Add, Sub and Mul are the ALU dispatch engine with three operations. -/
theorem arithmeticInstructions : Obligations.ArithmeticInstructions :=
  ⟨aluLaw_of_exec_eq_binOp (fun _ => rfl) (fun _ => rfl),
    aluLaw_of_exec_eq_binOp (fun _ => rfl) (fun _ => rfl),
    aluLaw_of_exec_eq_binOp (fun _ => rfl) (fun _ => rfl)⟩

end Sys2Proof.Machine
end

section
/-! PROOFS. The data-memory instructions (42_load_store.md R71). -/

namespace Sys2Proof.Machine

/-- The address checker rejects exactly what lies below or above the 256 words. -/
theorem inBounds_eq_false_iff (a : Word) : inBounds a = false ↔ a.toInt < 0 ∨ 256 ≤ a.toInt := by
  rw [Bool.eq_false_iff, Ne, inBounds_iff, not_and_or, not_le, not_lt]

/-- An in-bounds write read back at any address, with the written word named by the signed value of the
popped address. -/
theorem Memory.read_write_dataAddress {m : Memory} (hwf : m.wf) {addr : Word}
    (hb : inBounds addr = true) (value : Word) (x : Nat) :
    (m.write (dataAddress addr) value).read x =
      if (x : Int) = addr.toInt then value else m.read x := by
  rw [Memory.read_write hwf, ← dataAddress_eq_toInt_of_inBounds hb]
  simp only [Nat.cast_inj]

/-- Settles O15: both values are popped, then the bounds decide whether the write or the error follows; a
stack of fewer than two values never reaches the check. -/
theorem storeInstruction : Obligations.StoreInstruction := by
  refine ⟨fun _ => rfl, fun s r value addr hs => ⟨fun hlow hhigh hwf => ?_, fun hout => ?_⟩,
    fun _ _ hone => execStore_one hone, fun _ hempty => execStore_empty hempty⟩
  · have hb : inBounds addr = true := (inBounds_iff addr).mpr ⟨hlow, hhigh⟩
    exact ⟨s.mem.write (dataAddress addr) value, execStore_done hs hb,
      Memory.wf_write hwf (dataAddress_lt_of_inBounds hb) value,
      Memory.read_write_dataAddress hwf hb value⟩
  · exact execStore_outside hs ((inBounds_eq_false_iff addr).mpr hout)

end Sys2Proof.Machine
end

section
/-! PROOFS. The control-transfer instructions (43_control.md R73 to R75). -/

namespace Sys2Proof.Machine

/-- The jump-target check rejects exactly what lies below 0 or at or past the program's end. -/
theorem validTarget_eq_false_iff (t : Word) (l : Nat) :
    validTarget t l = false ↔ t.toInt < 0 ∨ (l : Int) ≤ t.toInt := by
  rw [Bool.eq_false_iff, Ne, validTarget_iff, not_and_or, not_le, not_lt]

/-- The `pc` of a jump is the target's own signed value: a target that passes the check is not
negative. -/
theorem toNat_targetPc_of_validTarget {t : Word} {l : Nat} (h : validTarget t l = true) :
    ((targetPc t).toNat : Int) = t.toInt := by
  obtain ⟨hnonneg, -⟩ := (validTarget_iff t l).mp h
  exact toNat_of_toInt_nonneg hnonneg

/-- Settles O17: the target is popped, then the check decides whether the jump or the error follows. -/
theorem jmpInstruction : Obligations.JmpInstruction := by
  refine ⟨fun _ => rfl, fun s r target hs => ⟨fun hlow hhigh => ?_, fun hout => ?_⟩,
    fun _ hempty => execJmp_empty hempty⟩
  · have hv : validTarget target s.progLen = true := (validTarget_iff _ _).mpr ⟨hlow, hhigh⟩
    exact ⟨targetPc target, execJmp_done hs hv, toNat_targetPc_of_validTarget hv⟩
  · exact execJmp_invalid hs ((validTarget_eq_false_iff _ _).mpr hout)

/-- JumpIf with a valid target, by the test of the condition as a word: `pc` is the target when it is
not 0 and the next byte when it is. -/
theorem execJumpIf_done {s : State} {r : List Word} {target cond : Word}
    (hs : s.stack = r ++ [target, cond]) (hv : validTarget target s.progLen = true) :
    execJumpIf s =
      .next ((s.withStack r).withPc (if cond = 0 then s.pc + 1 else targetPc target)) := by
  by_cases hzero : cond = 0
  · have hc : condTaken cond = false :=
      Bool.eq_false_iff.mpr fun h => (condTaken_iff_ne_zero cond).mp h hzero
    rw [if_pos hzero]
    exact execJumpIf_untaken hs hv hc
  · rw [if_neg hzero]
    exact execJumpIf_taken hs hv ((condTaken_iff_ne_zero cond).mpr hzero)

/-- Settles O18: the target check comes before the test of the condition, so an invalid target raises
whatever the condition is; a stack of fewer than two values never reaches either. -/
theorem jumpIfInstruction : Obligations.JumpIfInstruction := by
  refine ⟨fun _ => rfl, fun s r target cond hs => ⟨fun hlow hhigh => ?_, fun hout => ?_⟩,
    fun _ _ hone => execJumpIf_one hone, fun _ hempty => execJumpIf_empty hempty⟩
  · have hv : validTarget target s.progLen = true := (validTarget_iff _ _).mpr ⟨hlow, hhigh⟩
    refine ⟨_, execJumpIf_done hs hv, fun hne => ?_, fun hzero => if_pos hzero⟩
    rw [if_neg hne]
    exact toNat_targetPc_of_validTarget hv
  · exact execJumpIf_invalid hs ((validTarget_eq_false_iff _ _).mpr hout)

end Sys2Proof.Machine
end

section
/-! PROOFS. The stack-manipulation instructions (44_stack_manipulation.md R76 to R80). -/

namespace Sys2Proof.Machine

variable {s : State}

/-- Rot permutes the top three values in a cycle of length three, so the third one closes it (R78). -/
theorem execRot_three_times {r : List Word} {a b c : Word} (hs : s.stack = r ++ [a, b, c]) :
    ∃ t u v, execRot s = .next t ∧ execRot t = .next u ∧ execRot u = .next v ∧
      v.stack = r ++ [a, b, c] :=
  ⟨_, _, _, execRot_done hs, execRot_done rfl, execRot_done rfl, rfl⟩

/-- Settles O21: the completing clause three times in a row, on the three values a stack of that depth
ends in. -/
theorem rotInstruction : Obligations.RotInstruction := by
  refine ⟨fun _ => rfl, fun _ _ _ _ _ hs => execRot_done hs, fun _ hshort => execRot_short hshort,
    fun s hdepth => ?_⟩
  obtain ⟨r, a, b, c, hs⟩ := s.stack_of_three_le hdepth
  rw [hs]
  exact execRot_three_times hs

/-- What Pick's range check rejects, by its two ends (R80, D8). -/
theorem not_pickRange_of_outside {n : Word} {d : Nat} (h : n.toInt < 1 ∨ (d : Int) ≤ n.toInt) :
    ¬ (1 ≤ n.toInt ∧ n.toInt < d) := by
  omega

/-- In Pick's range the value it copies is on the stack. -/
theorem exists_getElem?_of_pickRange {r : List Word} {n : Word} (hlow : 1 ≤ n.toInt)
    (hhigh : n.toInt < r.length) : ∃ x, r[r.length - n.toInt.toNat]? = some x :=
  ⟨_, List.getElem?_eq_getElem (by omega)⟩

/-- Settles O23: `n` is popped, then its range decides whether the copy or the error follows; within the
capacity the pop made room for the copy. -/
theorem pickInstruction : Obligations.PickInstruction := by
  refine ⟨fun _ => rfl, fun s r n hs hfits => ⟨fun hlow hhigh => ?_, fun hout => ?_⟩,
    fun _ hempty => execPick_empty hempty⟩
  · obtain ⟨x, hx⟩ := exists_getElem?_of_pickRange hlow hhigh
    have hroom : (s.withStack r).full = false :=
      State.full_withStack_of_stackFits hfits (by simp [State.depth, hs])
    exact ⟨x, hx, execPick_done hs hlow hhigh hx hroom⟩
  · exact execPick_outside hs (not_pickRange_of_outside hout)

/-- Settles O19: the depth check comes first, then the capacity decides. -/
theorem dupInstruction : Obligations.DupInstruction := by
  refine ⟨fun _ => rfl, fun s r x hs => ⟨fun hroom => ?_, fun hcap => ?_⟩,
    fun _ hempty => execDup_empty hempty⟩
  · exact execDup_done hs (State.full_eq_false_of_hasRoom hroom)
  · exact execDup_full (by simp [State.depth, hs]) (State.full_of_stackCap hcap)

/-- Settles O20: Swap checks the depth alone, so the capacity does not matter. -/
theorem swapInstruction : Obligations.SwapInstruction :=
  ⟨fun _ => rfl, fun _ _ _ _ hs => execSwap_done hs, fun _ hshort => execSwap_short hshort⟩

/-- Settles O22: the depth check comes first, then the capacity decides. -/
theorem overInstruction : Obligations.OverInstruction := by
  refine ⟨fun _ => rfl, fun s r a b hs => ⟨fun hroom => ?_, fun hcap => ?_⟩,
    fun _ hshort => execOver_short hshort⟩
  · exact execOver_done hs (State.full_eq_false_of_hasRoom hroom)
  · exact execOver_full (by simp [State.depth, hs]) (State.full_of_stackCap hcap)

end Sys2Proof.Machine
end

section
/-! PROOFS. The error codes and `raise` (60_exceptions.md R82, R84). -/

namespace Sys2Proof.Machine

/-- Raising writes the two registers of status and no other field of the state: the whole next state, of
which the `State.raised_…` lemmas are the fields. -/
theorem raise_eq_next (e : ErrorKind) (s : State) :
    raise e s = .next { s with status := .haltedErr, err := e.code } := rfl

/-- Settles O10: each code is its row of R82's table, and `raise` is one update of `status` and `err`. -/
theorem errorCodesAndNothingElseRecorded : Obligations.ErrorCodesAndNothingElseRecorded :=
  ⟨rfl, rfl, rfl, rfl, rfl, rfl, rfl, rfl, rfl, raise_eq_next⟩

end Sys2Proof.Machine
end

section
/-! PROOFS. The host's RESET and START (70_reset_and_hazards.md R98, R100). -/

namespace Sys2Proof.Machine

variable {s : State}

theorem step_reset (hcmd : s.pendingCommand = some .reset) :
    step s = .next { State.reset with
      program := s.program, host := s.host.tail, config := s.config } := step_command hcmd

/-- Every memory word is 0 after power-on. -/
theorem reset_mem_read (a : Nat) : State.reset.mem.read a = 0 := Memory.read_nil a

theorem commandStart_accepted (hnotrun : s.status ≠ .running) :
    commandStart s = .next (s.withStatus .running errNone) := if_neg hnotrun

theorem commandStart_ignored (hrun : s.status = .running) : commandStart s = .next s := if_pos hrun

theorem step_start_accepted (hcmd : s.pendingCommand = some .start) (hnotrun : s.status ≠ .running) :
    step s = .next (s.afterBoundary.withStatus .running errNone) :=
  (step_command hcmd).trans (commandStart_accepted (s := s.afterBoundary) hnotrun)

theorem step_start_ignored (hcmd : s.pendingCommand = some .start) (hrun : s.status = .running) :
    step s = .next s.afterBoundary :=
  (step_command hcmd).trans (commandStart_ignored (s := s.afterBoundary) hrun)

/-- Accepted or ignored, START leaves the CORE RUNNING; besides `status` and `err` it only uses up the
boundary's entry of the schedule. -/
theorem step_start (hcmd : s.pendingCommand = some .start) :
    ∃ e, step s = .next (s.afterBoundary.withStatus .running e) := by
  by_cases hrun : s.status = .running
  · refine ⟨s.err, (step_start_ignored hcmd hrun).trans ?_⟩
    rw [← hrun]
    rfl
  · exact ⟨errNone, step_start_accepted hcmd hrun⟩

/-- Settles O43: RESET writes the power-on values over every state element and keeps the inputs. -/
theorem resetCommand : Obligations.ResetCommand :=
  ⟨fun _ hcmd => ⟨_, step_reset hcmd, rfl, reset_mem_read, rfl, rfl, rfl, rfl⟩,
    rfl, reset_mem_read, rfl, rfl, rfl⟩

/-- Settles O44, by whether the CORE is RUNNING; either way it is RUNNING afterwards with `pc` and the
program as they were, so at the program's end its next step halts. -/
theorem startCommand : Obligations.StartCommand := by
  intro s hcmd
  refine ⟨step_start_accepted hcmd, step_start_ignored hcmd, fun hend hlast t ht => ?_⟩
  obtain ⟨e, hstart⟩ := step_start hcmd
  obtain rfl : s.afterBoundary.withStatus .running e = t := by
    rw [hstart] at ht
    exact Host.Outcome.next.inj ht
  have hhalt := step_endOfProgram_of_host_nil
    (s := s.afterBoundary.withStatus .running e) hlast rfl hend
  exact ⟨_, hhalt, rfl, rfl, rfl, rfl⟩

end Sys2Proof.Machine
end

section
/-! PROOFS. Decode and encode agree (30_encoding.md section 2 to 4). -/

namespace Sys2Proof

@[simp] theorem decode_encode_append (i : Instr) (rest : List Byte) :
    decode (encode i ++ rest) = .ok (i, rest) := by
  cases i <;> rfl

/-- Settles O3: one direction reads an instruction off its own bytes, the other is that nothing else
decodes to it. -/
theorem decodeIffBytesBeginWithEncoding : Obligations.DecodeIffBytesBeginWithEncoding := by
  intro bs i rest
  refine ⟨eq_encode_append_of_decode, fun hbytes => ?_⟩
  rw [hbytes, decode_encode_append]

/-- An opcode byte is rejected only where it is Push's and nothing follows. -/
theorem decode_opcode_error {o : Opcode} {tail : List Byte} {e : DecodeError}
    (h : decode (o.byte :: tail) = .error e) : o = .push ∧ tail = [] ∧ e = .operandMissing := by
  cases o
  case push =>
    cases tail with
    | nil => cases h; exact ⟨rfl, rfl, rfl⟩
    | cons imm8 tail => cases h
  all_goals cases h

/-- Settles O4, by the three ways a list of bytes can begin: not at all, with a byte that is no opcode, or
with an opcode byte. -/
theorem decodeRejectsByName : Obligations.DecodeRejectsByName := by
  intro bs
  cases bs with
  | nil => simp
  | cons b tail =>
    cases ho : decodeOpcode b with
    | none =>
      have hb : b ≠ 1#8 := by
        rintro rfl
        cases ho
      rw [decode_invalid ho]
      refine ⟨by simp, by simp [hb], fun c => ?_⟩
      simp only [Except.error.injEq, DecodeError.invalidOpcode.injEq, List.head?_cons,
        Option.some.injEq]
      exact ⟨fun h => ⟨h ▸ ho, h⟩, And.right⟩
    | some o =>
      obtain rfl := eq_byte_of_decodeOpcode ho
      refine ⟨⟨fun h => ?_, fun h => by cases h⟩, ⟨fun h => ?_, fun h => ?_⟩, fun c => ⟨fun h => ?_, ?_⟩⟩
      · obtain ⟨-, -, he⟩ := decode_opcode_error h
        cases he
      · obtain ⟨rfl, rfl, -⟩ := decode_opcode_error h
        rfl
      · rw [h]
        exact decode_push_missing
      · obtain ⟨-, -, he⟩ := decode_opcode_error h
        cases he
      · rintro ⟨hc, hhead⟩
        cases hhead
        rw [ho] at hc
        cases hc

theorem assemble_append (is js : List Instr) : assemble (is ++ js) = assemble is ++ assemble js := by
  induction is with
  | nil => rfl
  | cons i is ih => simp [assemble, ih]

namespace Machine

variable {s : State}

theorem fetch_of_bytesAtPc {i : Instr} {rest : List Byte} (h : s.bytesAtPc = encode i ++ rest) :
    fetch s = .ok i := fetch_ok (by rw [h, decode_encode_append])

/-- Settles O6: `pc` has passed exactly the bytes of what comes before, so the bytes from there on begin
with the instruction's own. -/
theorem fetchFollowsStraightLineCode : Obligations.FetchFollowsStraightLineCode := by
  intro s before i rest hprog hpc
  apply fetch_of_bytesAtPc (rest := rest)
  rw [State.bytesAtPc, hprog, hpc, assemble_append, List.append_assoc, List.drop_left]
  simp [assemble]

end Machine

/-- Settles O1: each of the words is evaluated. -/
theorem writtenOutBytesDecode : Obligations.WrittenOutBytesDecode :=
  ⟨rfl, rfl, rfl, rfl, rfl, rfl, rfl, rfl⟩

/-- Settles O2, on all 256 bytes. -/
theorem invalidOpcodeBytesAreTheOther242 : Obligations.InvalidOpcodeBytesAreTheOther242 := by
  exact ⟨by decide, by decide +kernel⟩

end Sys2Proof
end

section
/-! PROOFS. All an instruction can do, said once as a relation between the state it starts in and the
state it answers: it fails, or it completes, or it was to complete and found the stack full.  The
premises of failing and completing name the stack, `pc`, the program's length and (Load, Store) memory,
and no other field; the capacity decides between the last two alone. -/

namespace Sys2Proof.Machine

/-! ### The relation -/

/-- The operation that the ALU dispatch engine runs for an instruction (41_arithmetic.md R68 to R70). -/
def aluOp : Instr → Option (Int → Int → Int)
  | .add => some fun a b => a + b
  | .sub => some fun a b => a - b
  | .mul => some fun a b => a * b
  | _ => none

/-- An instruction ends with a `push`, so it needs room on the stack. -/
def pushes : Instr → Bool
  | .push _ | .add | .sub | .mul | .load | .dup | .overNos | .pick => true
  | .pop | .store | .jmp | .jumpIf | .swap | .rot => false

/-- The state with the instruction's pops done: what an error finds (60_exceptions.md R86). -/
def State.afterPops (s : State) (i : Instr) : State :=
  s.withStack (s.stack.take (s.depth - popCount i))

/-- The stack is full where the instruction pushes. -/
def State.blocks (s : State) (i : Instr) : Bool := pushes i && (s.afterPops i).full

/-- On this stack, at this `pc` of a program of length `l`, the instruction raises the error, whatever
the capacity and memory are (60_exceptions.md R83). -/
inductive Fails (st : List Word) (p : BitVec 32) (l : Nat) : Instr → ErrorKind → Prop
  | operandMissing {imm8 : Byte} : operandPresent p l = false →
      Fails st p l (.push imm8) .invalidProgramCounter
  | underflow {i : Instr} : st.length < popCount i → Fails st p l i .stackUnderflow
  | storeOutside {r : List Word} {v a : Word} : st = r ++ [v, a] → inBounds a = false →
      Fails st p l .store .memoryOutOfBounds
  | loadOutside {r : List Word} {a : Word} : st = r ++ [a] → inBounds a = false →
      Fails st p l .load .memoryOutOfBounds
  | jmpInvalid {r : List Word} {t : Word} : st = r ++ [t] → validTarget t l = false →
      Fails st p l .jmp .invalidJumpTarget
  | jumpIfInvalid {r : List Word} {t c : Word} : st = r ++ [t, c] → validTarget t l = false →
      Fails st p l .jumpIf .invalidJumpTarget
  | dupEmpty : st = [] → Fails st p l .dup .stackIsEmpty
  | swapShort : st.length < 2 → Fails st p l .swap .notEnoughItemsInStack
  | rotShort : st.length < 3 → Fails st p l .rot .notEnoughItemsInStack
  | overShort : st.length < 2 → Fails st p l .overNos .notEnoughItemsInStack
  | pickOutside {r : List Word} {n : Word} : st = r ++ [n] →
      ¬ (1 ≤ n.toInt ∧ n.toInt < r.length) → Fails st p l .pick .notEnoughItemsInStack

/-- With memory `m`, at `pc` `p` of a program of length `l`, the instruction that completes on a stack
that ends in the operands `ops` puts the results `res` in their place, and leaves memory and `pc` as
named last.  Pick's operands reach down to one value below the one it copies, which R80's `n < d'` wants
to be there. -/
inductive Effect (m : Memory) (p : BitVec 32) (l : Nat) :
    Instr → (ops res : List Word) → Memory → BitVec 32 → Prop
  | push {imm8 : Byte} : operandPresent p l = true →
      Effect m p l (.push imm8) [] [zext32 imm8] m (p + 2)
  | pop {x : Word} : Effect m p l .pop [x] [] m (p + 1)
  | alu {i : Instr} {f : Int → Int → Int} {a b : Word} : aluOp i = some f →
      Effect m p l i [a, b] [wrap32 (f a.toInt b.toInt)] m (p + 1)
  | store {v a : Word} : inBounds a = true →
      Effect m p l .store [v, a] [] (m.write (dataAddress a) v) (p + 1)
  | load {a : Word} : inBounds a = true →
      Effect m p l .load [a] [m.read (dataAddress a)] m (p + 1)
  | jmp {t : Word} : validTarget t l = true → Effect m p l .jmp [t] [] m (targetPc t)
  | jumpIf {t c : Word} : validTarget t l = true →
      Effect m p l .jumpIf [t, c] [] m (if c = 0 then p + 1 else targetPc t)
  | dup {x : Word} : Effect m p l .dup [x] [x, x] m (p + 1)
  | swap {a b : Word} : Effect m p l .swap [a, b] [b, a] m (p + 1)
  | rot {a b c : Word} : Effect m p l .rot [a, b, c] [b, c, a] m (p + 1)
  | overNos {a b : Word} : Effect m p l .overNos [a, b] [a, b, a] m (p + 1)
  | pick {y x n : Word} {mid : List Word} : n.toInt = mid.length + 1 →
      Effect m p l .pick (y :: x :: mid ++ [n]) (y :: x :: mid ++ [x]) m (p + 1)

/-- The state an instruction answers, in each of its three ways to end. -/
inductive ExecOutcome (i : Instr) (s : State) : State → Prop
  | failed {e : ErrorKind} : Fails s.stack s.pc s.progLen i e →
      ExecOutcome i s ((s.afterPops i).raised e)
  | overflowed {r ops res : List Word} {m : Memory} {p : BitVec 32} : s.stack = r ++ ops →
      Effect s.mem s.pc s.progLen i ops res m p → s.blocks i = true →
      ExecOutcome i s ((s.afterPops i).raised .stackOverflow)
  | completed {r ops res : List Word} {m : Memory} {p : BitVec 32} : s.stack = r ++ ops →
      Effect s.mem s.pc s.progLen i ops res m p → s.blocks i = false →
      ExecOutcome i s (((s.withStack (r ++ res)).withMem m).withPc p)

/-! ### The relation holds of the instructions' meanings -/

variable {s t : State} {i : Instr}

theorem exec_eq_binOp {f : Int → Int → Int} (h : aluOp i = some f) : exec i s = binOp f s := by
  cases i <;> cases h <;> rfl

theorem popCount_of_aluOp {f : Int → Int → Int} (h : aluOp i = some f) : popCount i = 2 := by
  cases i <;> cases h <;> rfl

theorem pushes_of_aluOp {f : Int → Int → Int} (h : aluOp i = some f) : pushes i = true := by
  cases i <;> cases h <;> rfl

/-- The pops of an instruction are all done on a stack that ends in at least as many values. -/
theorem State.afterPops_append {r ops : List Word} (hs : s.stack = r ++ ops)
    (hk : ops.length = popCount i) : s.afterPops i = s.withStack r := by
  simp [State.afterPops, State.depth, hs, hk]

/-- An instruction without pops leaves the stack to its error. -/
theorem State.afterPops_of_popCount_zero (h : popCount i = 0) : s.afterPops i = s := by
  simp [State.afterPops, State.depth, h, State.withStack_self]

/-- The pops of an instruction that are too many for the stack empty it. -/
theorem State.afterPops_of_short (h : s.stack.length ≤ popCount i) :
    s.afterPops i = s.withStack [] := by
  simp [State.afterPops, State.depth, Nat.sub_eq_zero_of_le h]

theorem exec_of_stack_nil (h : 0 < popCount i) (hs : s.stack = []) :
    exec i s = .next (s.raised .stackUnderflow) := by
  cases i with
  | push | dup | swap | rot | overNos => exact absurd h (Nat.lt_irrefl 0)
  | pop => exact execPop_empty hs
  | add | sub | mul => exact binOp_empty hs
  | store => exact execStore_empty hs
  | load => exact execLoad_empty hs
  | jmp => exact execJmp_empty hs
  | jumpIf => exact execJumpIf_empty hs
  | pick => exact execPick_empty hs

theorem exec_of_stack_singleton {x : Word} (h : popCount i = 2) (hs : s.stack = [x]) :
    exec i s = .next ((s.withStack []).raised .stackUnderflow) := by
  cases i with
  | add | sub | mul => exact binOp_one hs
  | store => exact execStore_one hs
  | jumpIf => exact execJumpIf_one hs
  | push | pop | load | jmp | dup | swap | rot | overNos | pick => cases h

theorem popCount_le_two (i : Instr) : popCount i ≤ 2 := by
  cases i <;> simp [popCount]

theorem exec_of_underflow (h : s.stack.length < popCount i) :
    exec i s = .next ((s.afterPops i).raised .stackUnderflow) := by
  rw [State.afterPops_of_short h.le]
  have htwo := popCount_le_two i
  rcases s.stack_cases_two with hs | ⟨x, hs⟩ | ⟨r, y, x, hs⟩
  · rw [exec_of_stack_nil (Nat.zero_lt_of_lt h) hs, ← hs, State.withStack_self]
  · rw [hs] at h
    exact exec_of_stack_singleton (Nat.le_antisymm htwo h) hs
  · simp only [hs, List.length_append, List.length_cons] at h
    omega

theorem exec_of_fails {e : ErrorKind} (h : Fails s.stack s.pc s.progLen i e) :
    exec i s = .next ((s.afterPops i).raised e) := by
  cases h with
  | operandMissing hop =>
    rw [State.afterPops_of_popCount_zero rfl]
    exact execPush_missing hop
  | underflow hshort => exact exec_of_underflow hshort
  | storeOutside hs hb =>
    rw [State.afterPops_append hs rfl]
    exact execStore_outside hs hb
  | loadOutside hs hb =>
    rw [State.afterPops_append hs rfl]
    exact execLoad_outside hs hb
  | jmpInvalid hs hv =>
    rw [State.afterPops_append hs rfl]
    exact execJmp_invalid hs hv
  | jumpIfInvalid hs hv =>
    rw [State.afterPops_append hs rfl]
    exact execJumpIf_invalid hs hv
  | dupEmpty hs =>
    rw [State.afterPops_of_popCount_zero rfl]
    exact execDup_empty hs
  | swapShort hd =>
    rw [State.afterPops_of_popCount_zero rfl]
    exact execSwap_short hd
  | rotShort hd =>
    rw [State.afterPops_of_popCount_zero rfl]
    exact execRot_short hd
  | overShort hd =>
    rw [State.afterPops_of_popCount_zero rfl]
    exact execOver_short hd
  | pickOutside hs hn =>
    rw [State.afterPops_append hs rfl]
    exact execPick_outside hs hn

/-- Pick copies the value that has `n - 1` values above it below `n`. -/
theorem getElem?_pick_operand {r mid : List Word} {x n : Word} (hn : n.toInt = mid.length + 1) :
    (r ++ x :: mid)[(r ++ x :: mid).length - n.toInt.toNat]? = some x := by
  have hk : (r ++ x :: mid).length - n.toInt.toNat = r.length := by
    simp only [List.length_append, List.length_cons]
    omega
  rw [hk, List.getElem?_append_right (Nat.le_refl _), Nat.sub_self]
  rfl

/-- In Pick's range the stack below `n` ends in a value, the one Pick copies, and `n - 1` more. -/
theorem exists_pick_operands {q : List Word} {n : Word} (hlow : 1 ≤ n.toInt)
    (hhigh : n.toInt < q.length) :
    ∃ r y x mid, q = r ++ y :: x :: mid ∧ n.toInt = (mid : List Word).length + 1 := by
  obtain ⟨k, hk, hkn⟩ : ∃ k, k + 1 < q.length ∧ n.toInt = q.length - (k + 1) :=
    ⟨q.length - 1 - n.toInt.toNat, by omega, by omega⟩
  refine ⟨q.take k, q[k], q[k + 1], q.drop (k + 2), ?_, by simp only [List.length_drop]; omega⟩
  rw [← List.drop_eq_getElem_cons hk, ← List.drop_eq_getElem_cons (Nat.lt_of_succ_lt hk),
    List.take_append_drop]

/-- An instruction without pops that pushes is blocked where the stack is full. -/
theorem State.full_eq_blocks (hk : popCount i = 0) (hp : pushes i = true) :
    s.full = s.blocks i := by
  rw [State.blocks, State.afterPops_of_popCount_zero hk, hp, Bool.true_and]

/-- An instruction that pops its operands and pushes is blocked where the rest of the stack is full. -/
theorem State.full_withStack_eq_blocks {r ops : List Word} (hs : s.stack = r ++ ops)
    (hk : ops.length = popCount i) (hp : pushes i = true) :
    (s.withStack r).full = s.blocks i := by
  rw [State.blocks, State.afterPops_append hs hk, hp, Bool.true_and]

theorem pushes_of_blocks (h : s.blocks i = true) : pushes i = true :=
  (Bool.and_eq_true_iff.mp h).1

/-- An instruction that was to complete raises StackOverflow where its push finds the stack full. -/
theorem exec_of_effect_full {r ops res : List Word} {m : Memory} {p : BitVec 32}
    (hs : s.stack = r ++ ops) (h : Effect s.mem s.pc s.progLen i ops res m p)
    (hfull : s.blocks i = true) :
    exec i s = .next ((s.afterPops i).raised .stackOverflow) := by
  cases h with
  | push hop =>
    rw [State.afterPops_of_popCount_zero rfl]
    exact execPush_full hop ((State.full_eq_blocks rfl rfl).trans hfull)
  | alu hop =>
    have hk := popCount_of_aluOp hop
    rw [State.afterPops_append hs hk.symm, exec_eq_binOp hop]
    exact binOp_full hs
      ((State.full_withStack_eq_blocks hs hk.symm (pushes_of_aluOp hop)).trans hfull)
  | load hb =>
    rw [State.afterPops_append hs rfl]
    exact execLoad_full hs hb ((State.full_withStack_eq_blocks hs rfl rfl).trans hfull)
  | dup =>
    rw [State.afterPops_of_popCount_zero rfl]
    exact execDup_full (by simp [State.depth, hs]) ((State.full_eq_blocks rfl rfl).trans hfull)
  | overNos =>
    rw [State.afterPops_of_popCount_zero rfl]
    exact execOver_full (by simp [State.depth, hs]) ((State.full_eq_blocks rfl rfl).trans hfull)
  | pick hn =>
    rw [← List.append_assoc] at hs
    rw [State.afterPops_append hs rfl]
    exact execPick_full hs (by omega) (by simp; omega)
      ((State.full_withStack_eq_blocks hs rfl rfl).trans hfull)
  | pop | store | jmp | jumpIf | swap | rot => cases pushes_of_blocks hfull

/-- An instruction that is to complete does, where its push finds room. -/
theorem exec_of_effect {r ops res : List Word} {m : Memory} {p : BitVec 32}
    (hs : s.stack = r ++ ops) (h : Effect s.mem s.pc s.progLen i ops res m p)
    (hroom : s.blocks i = false) :
    exec i s = .next (((s.withStack (r ++ res)).withMem m).withPc p) := by
  cases h with
  | push hop =>
    rw [List.append_nil] at hs
    rw [← hs]
    exact execPush_done hop ((State.full_eq_blocks rfl rfl).trans hroom)
  | pop =>
    rw [List.append_nil]
    exact execPop_done hs
  | alu hop =>
    rw [exec_eq_binOp hop]
    exact binOp_done hs ((State.full_withStack_eq_blocks hs (popCount_of_aluOp hop).symm
      (pushes_of_aluOp hop)).trans hroom)
  | store hb =>
    rw [List.append_nil]
    exact execStore_done hs hb
  | load hb => exact execLoad_done hs hb ((State.full_withStack_eq_blocks hs rfl rfl).trans hroom)
  | jmp hv =>
    rw [List.append_nil]
    exact execJmp_done hs hv
  | jumpIf hv =>
    rw [List.append_nil]
    exact execJumpIf_done hs hv
  | dup => exact execDup_done hs ((State.full_eq_blocks rfl rfl).trans hroom)
  | swap => exact execSwap_done hs
  | rot => exact execRot_done hs
  | overNos => exact execOver_done hs ((State.full_eq_blocks rfl rfl).trans hroom)
  | @pick y x n mid hn =>
    rw [← List.append_assoc] at hs ⊢
    have hx := getElem?_pick_operand (r := r ++ [y]) (x := x) hn
    rw [List.append_assoc, List.singleton_append] at hx
    exact execPick_done hs (by omega) (by simp; omega) hx
      ((State.full_withStack_eq_blocks hs rfl rfl).trans hroom)

/-- Every instruction fails or is to complete, on every state. -/
theorem fails_or_effect (i : Instr) (s : State) :
    (∃ e, Fails s.stack s.pc s.progLen i e) ∨
    ∃ r ops res m p, s.stack = r ++ ops ∧ Effect s.mem s.pc s.progLen i ops res m p := by
  by_cases hshort : s.depth < popCount i
  · exact .inl ⟨_, .underflow hshort⟩
  have hdepth : popCount i ≤ s.depth := Nat.le_of_not_lt hshort
  cases i with
  | push imm8 =>
    cases hop : operandPresent s.pc s.progLen with
    | false => exact .inl ⟨_, .operandMissing hop⟩
    | true => exact .inr ⟨_, _, _, _, _, (List.append_nil _).symm, .push hop⟩
  | pop =>
    obtain ⟨r, x, hs⟩ := s.stack_of_one_le hdepth
    exact .inr ⟨_, _, _, _, _, hs, .pop⟩
  | add | sub | mul =>
    obtain ⟨r, a, b, hs⟩ := s.stack_of_two_le hdepth
    exact .inr ⟨_, _, _, _, _, hs, .alu rfl⟩
  | store =>
    obtain ⟨r, v, a, hs⟩ := s.stack_of_two_le hdepth
    cases hb : inBounds a with
    | false => exact .inl ⟨_, .storeOutside hs hb⟩
    | true => exact .inr ⟨_, _, _, _, _, hs, .store hb⟩
  | load =>
    obtain ⟨r, a, hs⟩ := s.stack_of_one_le hdepth
    cases hb : inBounds a with
    | false => exact .inl ⟨_, .loadOutside hs hb⟩
    | true => exact .inr ⟨_, _, _, _, _, hs, .load hb⟩
  | jmp =>
    obtain ⟨r, target, hs⟩ := s.stack_of_one_le hdepth
    cases hv : validTarget target s.progLen with
    | false => exact .inl ⟨_, .jmpInvalid hs hv⟩
    | true => exact .inr ⟨_, _, _, _, _, hs, .jmp hv⟩
  | jumpIf =>
    obtain ⟨r, target, cond, hs⟩ := s.stack_of_two_le hdepth
    cases hv : validTarget target s.progLen with
    | false => exact .inl ⟨_, .jumpIfInvalid hs hv⟩
    | true => exact .inr ⟨_, _, _, _, _, hs, .jumpIf hv⟩
  | dup =>
    rcases List.eq_nil_or_concat' s.stack with hs | ⟨r, x, hs⟩
    · exact .inl ⟨_, .dupEmpty hs⟩
    · exact .inr ⟨_, _, _, _, _, hs, .dup⟩
  | swap =>
    by_cases hd : s.depth < 2
    · exact .inl ⟨_, .swapShort hd⟩
    · obtain ⟨r, a, b, hs⟩ := s.stack_of_two_le (Nat.le_of_not_lt hd)
      exact .inr ⟨_, _, _, _, _, hs, .swap⟩
  | rot =>
    by_cases hd : s.depth < 3
    · exact .inl ⟨_, .rotShort hd⟩
    · obtain ⟨r, a, b, c, hs⟩ := s.stack_of_three_le (Nat.le_of_not_lt hd)
      exact .inr ⟨_, _, _, _, _, hs, .rot⟩
  | overNos =>
    by_cases hd : s.depth < 2
    · exact .inl ⟨_, .overShort hd⟩
    · obtain ⟨r, a, b, hs⟩ := s.stack_of_two_le (Nat.le_of_not_lt hd)
      exact .inr ⟨_, _, _, _, _, hs, .overNos⟩
  | pick =>
    obtain ⟨q, n, hs⟩ := s.stack_of_one_le hdepth
    by_cases hn : 1 ≤ n.toInt ∧ n.toInt < q.length
    · obtain ⟨r, y, x, mid, rfl, hmid⟩ := exists_pick_operands hn.1 hn.2
      exact .inr ⟨_, _, _, _, _, hs.trans (List.append_assoc ..), .pick hmid⟩
    · exact .inl ⟨_, .pickOutside hs hn⟩

theorem ExecOutcome.exec_eq (h : ExecOutcome i s t) : exec i s = .next t := by
  cases h with
  | failed hf => exact exec_of_fails hf
  | overflowed hs he hfull => exact exec_of_effect_full hs he hfull
  | completed hs he hroom => exact exec_of_effect hs he hroom

theorem exists_execOutcome (i : Instr) (s : State) : ∃ t, ExecOutcome i s t := by
  rcases fails_or_effect i s with ⟨e, hf⟩ | ⟨r, ops, res, m, p, hs, he⟩
  · exact ⟨_, .failed hf⟩
  · cases hblocks : s.blocks i with
    | true => exact ⟨_, .overflowed hs he hblocks⟩
    | false => exact ⟨_, .completed hs he hblocks⟩

/-- The relation is the instruction's meaning, no more and no less. -/
theorem exec_eq_next_iff : exec i s = .next t ↔ ExecOutcome i s t := by
  refine ⟨fun h => ?_, ExecOutcome.exec_eq⟩
  obtain ⟨u, hu⟩ := exists_execOutcome i s
  cases hu.exec_eq.symm.trans h
  exact hu

end Sys2Proof.Machine
end

section
/-! PROOFS. The rules of all instructions: what they leave unchanged, which errors they raise, and on
which fields what they do depends (10_state.md R16, R17, R28, 60_exceptions.md R83 to R86). -/

namespace Sys2Proof.Machine

variable {s t : State} {i : Instr} {e : ErrorKind} {m m' : Memory} {p p' : BitVec 32} {l : Nat}
  {ops res : List Word}

/-! ### Completing -/

theorem Effect.popCount_le (h : Effect m p l i ops res m' p') : popCount i ≤ ops.length := by
  cases h with
  | alu hop => rw [popCount_of_aluOp hop]; rfl
  | _ => simp [popCount]

/-- A completing instruction takes as many values off the stack as it pops and puts one there if it
pushes; the ones it rearranges stay. -/
theorem Effect.length_add (h : Effect m p l i ops res m' p') :
    res.length + popCount i = ops.length + (pushes i).toNat := by
  cases h with
  | alu hop => rw [popCount_of_aluOp hop, pushes_of_aluOp hop]; rfl
  | _ => simp [popCount, pushes]

theorem Effect.mem_eq (h : Effect m p l i ops res m' p') (hi : i ≠ .store) : m' = m := by
  cases h with
  | store => exact absurd rfl hi
  | _ => rfl

/-- Only Load's results depend on what memory holds. -/
theorem Effect.of_mem (h : Effect m p l i ops res m' p') (hi : i ≠ .load) (n : Memory) :
    ∃ n', Effect n p l i ops res n' p' := by
  cases h with
  | push hop => exact ⟨_, .push hop⟩
  | pop => exact ⟨_, .pop⟩
  | alu hop => exact ⟨_, .alu hop⟩
  | store hb => exact ⟨_, .store hb⟩
  | load => exact absurd rfl hi
  | jmp hv => exact ⟨_, .jmp hv⟩
  | jumpIf hv => exact ⟨_, .jumpIf hv⟩
  | dup => exact ⟨_, .dup⟩
  | swap => exact ⟨_, .swap⟩
  | rot => exact ⟨_, .rot⟩
  | overNos => exact ⟨_, .overNos⟩
  | pick hn => exact ⟨_, .pick hn⟩

/-! ### Failing -/

theorem Fails.mem_raisable (h : Fails s.stack p l i e) : e ∈ raisable i := by
  cases h with
  | underflow hshort =>
    cases i with
    | push | dup | swap | rot | overNos => exact absurd hshort (Nat.not_lt_zero _)
    | pop | add | sub | mul | store | load | jmp | jumpIf | pick => simp [raisable]
  | _ => simp [raisable]

theorem Fails.ne_stackOverflow (h : Fails s.stack p l i e) : e ≠ .stackOverflow := by
  cases h <;> nofun

theorem stackOverflow_mem_raisable (hp : pushes i = true) (hk : popCount i = 0) :
    ErrorKind.stackOverflow ∈ raisable i := by
  cases i with
  | push | dup | overNos => simp [raisable]
  | add | sub | mul | load | pick => cases hk
  | pop | store | jmp | jumpIf | swap | rot => cases hp

theorem ErrorKind.code_eq_eight_iff (e : ErrorKind) : e.code = 8 ↔ e = .stackOverflow := by
  cases e <;> decide

/-! ### The capacity -/

theorem State.blocks_inf (h : s.config.stackCap = .inf) (i : Instr) : s.blocks i = false := by
  rw [State.blocks, State.full_inf (s := s.afterPops i) h, Bool.and_false]

/-- On a stack within the capacity only an instruction that pops nothing can find it full. -/
theorem popCount_eq_zero_of_blocks (hfits : s.stackFits = true) (hk : popCount i ≤ s.depth)
    (h : s.blocks i = true) : popCount i = 0 := by
  by_contra hpos
  have hfull : (s.afterPops i).full = true := (Bool.and_eq_true_iff.mp h).2
  have hroom : (s.afterPops i).full = false := by
    apply State.full_withStack_of_stackFits hfits
    rw [List.length_take]
    unfold State.depth at *
    omega
  rw [hroom] at hfull
  cases hfull

/-- An operand list at the top of the stack is no longer than the stack. -/
theorem State.length_le_depth {r : List Word} (hs : s.stack = r ++ ops) : ops.length ≤ s.depth := by
  rw [State.depth, hs, List.length_append]
  exact Nat.le_add_left ..

/-! ### The obligations -/

/-- Settles O24: an error writes the stack and the registers of status alone, and of the effects only
Store's writes memory. -/
theorem onlyStoreChangesMemory : Obligations.OnlyStoreChangesMemory := by
  intro i s t hexec
  cases exec_eq_next_iff.mp hexec with
  | failed => exact ⟨fun _ _ => rfl, rfl, rfl, rfl⟩
  | overflowed => exact ⟨fun _ _ => rfl, rfl, rfl, rfl⟩
  | completed hs heff =>
    refine ⟨fun hi a => ?_, rfl, rfl, rfl⟩
    rw [State.withPc_mem, State.withMem_mem, heff.mem_eq hi]

/-- Settles O25: a Store that completes writes at the address that was on top and moves `pc`, and every
other one leaves memory alone. -/
theorem storeChangesOneWord : Obligations.StoreChangesOneWord := by
  intro s t hwf hexec
  cases exec_eq_next_iff.mp hexec with
  | failed => exact ⟨fun _ _ _ _ => rfl, fun _ _ => rfl⟩
  | overflowed => exact ⟨fun _ _ _ _ => rfl, fun _ _ => rfl⟩
  | completed hs heff =>
    cases heff with
    | alu hop => cases hop
    | store hb =>
      refine ⟨fun addr htop a ha => ?_, fun hpc => absurd hpc (by simp)⟩
      obtain rfl : _ = addr := by simpa [hs] using htop
      exact Memory.read_write_other hwf ha _

/-- Settles O26: a failure raises an error of its row, and a full stack within the capacity stops only an
instruction whose row has StackOverflow. -/
theorem completesOrRaisesPrecisely : Obligations.CompletesOrRaisesPrecisely := by
  intro i s hfits
  obtain ⟨t, ht⟩ := exists_execOutcome i s
  refine ⟨t, ht.exec_eq, ?_⟩
  cases ht with
  | failed hf => exact .inr ⟨_, hf.mem_raisable, rfl⟩
  | overflowed hs heff hblocks =>
    have hk : popCount i = 0 := popCount_eq_zero_of_blocks hfits
      (heff.popCount_le.trans (State.length_le_depth hs)) hblocks
    exact .inr ⟨_, stackOverflow_mem_raisable (pushes_of_blocks hblocks) hk, rfl⟩
  | completed => exact .inl ⟨rfl, rfl⟩

/-- Settles O29: the capacity decides only whether a push finds room, and with INF it always does. -/
theorem finiteCapacityRefinesReference : Obligations.FiniteCapacityRefinesReference := by
  intro i s t hexec
  rw [exec_eq_next_iff (s := { s with config := _ })]
  cases exec_eq_next_iff.mp hexec with
  | failed hf => exact .inr (.failed hf)
  | overflowed hs heff hblocks =>
    have hfull : (s.afterPops i).full = true := (Bool.and_eq_true_iff.mp hblocks).2
    exact .inl ⟨rfl, rfl, _, (s.afterPops i).full_iff.mp hfull⟩
  | completed hs heff => exact .inr (.completed hs heff (State.blocks_inf rfl i))

/-- Settles O30: the operands of an instruction are at the end of the stack, so more values at its other
end join the part that stays. -/
theorem stackBelowOperandsIsIrrelevant : Obligations.StackBelowOperandsIsIrrelevant := by
  intro i s t base hcap hrun hexec ht
  rw [exec_eq_next_iff]
  cases exec_eq_next_iff.mp hexec with
  | failed => cases ht
  | overflowed => cases ht
  | @completed r ops res m p hs heff =>
    have hs' : base ++ s.stack = (base ++ r) ++ ops := by rw [hs, List.append_assoc]
    have hroom := State.blocks_inf (s := { s with stack := base ++ s.stack }) hcap i
    have hdone := ExecOutcome.completed (s := { s with stack := base ++ s.stack }) hs' heff hroom
    rwa [List.append_assoc] at hdone

/-- Settles O31: failing and finding the stack full do not depend on memory, and of the effects only
Load's results do. -/
theorem onlyLoadReadsMemory : Obligations.OnlyLoadReadsMemory := by
  intro i s t mem hi hexec
  simp only [exec_eq_next_iff]
  cases exec_eq_next_iff.mp hexec with
  | failed hf => exact ⟨mem, .failed hf⟩
  | overflowed hs heff hblocks =>
    obtain ⟨mem', heff'⟩ := heff.of_mem hi mem
    exact ⟨mem, .overflowed hs heff' hblocks⟩
  | completed hs heff hblocks =>
    obtain ⟨mem', heff'⟩ := heff.of_mem hi mem
    exact ⟨mem', .completed hs heff' hblocks⟩

end Sys2Proof.Machine
end

section
/-! PROOFS. All a step can do, said once: the host's command, an instruction, the end of the run, bytes
that are no instruction, or nothing (30_encoding.md R60, 70_reset_and_hazards.md R98 to R104). -/

namespace Sys2Proof.Machine

variable {s t : State} {i : Instr}

/-- The state a step answers, in each of the ways it can go. -/
inductive StepOutcome (s : State) : State → Prop
  | reset : s.pendingCommand = some .reset →
      StepOutcome s { State.reset with
        program := s.program, host := s.host.tail, config := s.config }
  | presented {p : List Byte} : s.pendingCommand = some (.present p) →
      s.config.admits p = true → StepOutcome s (s.afterBoundary.withProgram p)
  | started : s.pendingCommand = some .start → s.status ≠ .running →
      StepOutcome s (s.afterBoundary.withStatus .running errNone)
  | startIgnored : s.pendingCommand = some .start → s.status = .running →
      StepOutcome s s.afterBoundary
  | executed {i : Instr} {rest : List Byte} {t : State} : s.pendingCommand = none →
      s.status = .running → s.bytesAtPc = encode i ++ rest → ExecOutcome i s.afterBoundary t →
      StepOutcome s t
  | ended : s.pendingCommand = none → s.status = .running → s.progLen ≤ s.pc.toNat →
      StepOutcome s (s.afterBoundary.withStatus .haltedOk s.err)
  | undecodable {e : ErrorKind} : s.pendingCommand = none → s.status = .running →
      s.pc.toNat < s.progLen → e ≠ .stackOverflow → StepOutcome s (s.afterBoundary.raised e)
  | waiting : s.pendingCommand = none → s.status ≠ .running → StepOutcome s s.afterBoundary

/-! ### The host's presenting a program -/

theorem step_present {p : List Byte} (hcmd : s.pendingCommand = some (.present p))
    (hkeep : s.status = .running → p = s.program) (hadm : s.config.admits p = true) :
    step s = .next (s.afterBoundary.withProgram p) := by
  have hsame : ¬ (s.afterBoundary.status = .running ∧ p ≠ s.afterBoundary.program) :=
    fun h => h.2 (hkeep h.1)
  exact (step_command hcmd).trans ((if_neg hsame).trans (if_pos hadm))

theorem step_present_changed {p : List Byte} (hcmd : s.pendingCommand = some (.present p))
    (hrun : s.status = .running) (hp : p ≠ s.program) :
    step s = .refused .programChangedWhileRunning :=
  (step_command hcmd).trans (if_pos ⟨hrun, hp⟩)

theorem step_present_tooLong {p : List Byte} (hcmd : s.pendingCommand = some (.present p))
    (hkeep : s.status = .running → p = s.program) (hadm : s.config.admits p = false) :
    step s = .refused .programTooLong := by
  have hsame : ¬ (s.afterBoundary.status = .running ∧ p ≠ s.afterBoundary.program) :=
    fun h => h.2 (hkeep h.1)
  exact (step_command hcmd).trans ((if_neg hsame).trans (if_neg (Bool.eq_false_iff.mp hadm)))

/-! ### The steps that answer, and the relation -/

theorem step_executed {rest : List Byte} (hcmd : s.pendingCommand = none)
    (hrun : s.status = .running) (hbytes : s.bytesAtPc = encode i ++ rest) :
    step s = exec i s.afterBoundary :=
  step_of_decode_ok hcmd hrun (by rw [hbytes, decode_encode_append])

/-- At a byte that begins no instruction a running CORE halts on an error, and it is not StackOverflow. -/
theorem exists_step_undecodable {e : DecodeError} (hcmd : s.pendingCommand = none)
    (hrun : s.status = .running) (hdec : decode s.bytesAtPc = .error e)
    (hlt : s.pc.toNat < s.progLen) :
    ∃ k, k ≠ .stackOverflow ∧ step s = .next (s.afterBoundary.raised k) := by
  rw [step_of_decode_error hcmd hrun hdec]
  cases e with
  | endOfBytes =>
    obtain ⟨hnil, -, -⟩ := decodeRejectsByName s.bytesAtPc
    exact absurd (State.bytesAtPc_eq_nil.mp (hnil.mp hdec)) (Nat.not_le_of_lt hlt)
  | invalidOpcode b => exact ⟨.invalidOpcode, nofun, rfl⟩
  | operandMissing => exact ⟨.invalidProgramCounter, nofun, rfl⟩

/-- While the host keeps the program, or the CORE is not RUNNING and the program is not too long, a step
answers a state of the relation. -/
theorem exists_stepOutcome (hpresent : ∀ p, s.pendingCommand = some (.present p) →
      (s.status = .running → p = s.program) ∧ s.config.admits p = true) :
    ∃ t, step s = .next t ∧ StepOutcome s t := by
  cases hcmd : s.pendingCommand with
  | some c =>
    cases c with
    | reset => exact ⟨_, step_reset hcmd, .reset hcmd⟩
    | present p =>
      obtain ⟨hkeep, hadm⟩ := hpresent p hcmd
      exact ⟨_, step_present hcmd hkeep hadm, .presented hcmd hadm⟩
    | start =>
      by_cases hrun : s.status = .running
      · exact ⟨_, step_start_ignored hcmd hrun, .startIgnored hcmd hrun⟩
      · exact ⟨_, step_start_accepted hcmd hrun, .started hcmd hrun⟩
  | none =>
    by_cases hrun : s.status = .running
    · by_cases hlt : s.pc.toNat < s.progLen
      · cases hdec : decode s.bytesAtPc with
        | ok d =>
          have hbytes := eq_encode_append_of_decode (i := d.1) (rest := d.2) hdec
          obtain ⟨t, ht⟩ := exists_execOutcome d.1 s.afterBoundary
          exact ⟨t, (step_executed hcmd hrun hbytes).trans ht.exec_eq,
            .executed hcmd hrun hbytes ht⟩
        | error e =>
          obtain ⟨k, hk, hstep⟩ := exists_step_undecodable hcmd hrun hdec hlt
          exact ⟨_, hstep, .undecodable hcmd hrun hlt hk⟩
      · have hend := Nat.le_of_not_lt hlt
        exact ⟨_, step_endOfProgram hcmd hrun hend, .ended hcmd hrun hend⟩
    · exact ⟨_, step_waiting hcmd hrun, .waiting hcmd hrun⟩

/-- The host's presenting a program is answered only where it is not refused. -/
theorem present_of_step {p : List Byte} (hcmd : s.pendingCommand = some (.present p))
    (h : step s = .next t) :
    (s.status = .running → p = s.program) ∧ s.config.admits p = true := by
  have hkeep : s.status = .running → p = s.program := fun hrun => by
    by_contra hp
    rw [step_present_changed hcmd hrun hp] at h
    cases h
  refine ⟨hkeep, ?_⟩
  by_contra hadm
  rw [step_present_tooLong hcmd hkeep (Bool.eq_false_iff.mpr hadm)] at h
  cases h

/-- Every step that answers a state goes one of the ways of the relation. -/
theorem stepOutcome_of_step (h : step s = .next t) : StepOutcome s t := by
  obtain ⟨u, hu, hout⟩ := exists_stepOutcome fun p hcmd => present_of_step hcmd h
  cases hu.symm.trans h
  exact hout

/-! ### The obligations on one step -/

/-- Settles O37: a command that presents the program there is stays within the premises. -/
theorem stepAnswersNextState : Obligations.StepAnswersNextState := by
  intro s hadm hkeep
  obtain ⟨t, ht, -⟩ := exists_stepOutcome (s := s) fun p hcmd => by
    obtain rfl := hkeep p hcmd
    exact ⟨fun _ => rfl, hadm⟩
  exact ⟨t, ht⟩

/-- An instruction leaves the CORE's status and `err`, or halts it on an error. -/
theorem ExecOutcome.status_cases (h : ExecOutcome i s t) :
    (t.status = s.status ∧ t.err = s.err) ∨ ∃ e : ErrorKind, t.status = .haltedErr ∧ t.err = e.code := by
  cases h with
  | @failed e => exact .inr ⟨e, rfl, rfl⟩
  | overflowed => exact .inr ⟨.stackOverflow, rfl, rfl⟩
  | completed => exact .inl ⟨rfl, rfl⟩

/-- An instruction has bytes, so `pc` is not past the program where one is decoded. -/
theorem State.pc_lt_progLen {rest : List Byte} (h : s.bytesAtPc = encode i ++ rest) :
    s.pc.toNat < s.progLen := by
  by_contra hend
  rw [State.bytesAtPc_eq_nil.mpr (Nat.le_of_not_lt hend)] at h
  cases i <;> cases h

/-- Settles O28: with INF no push is blocked, and no other error has the code 8. -/
theorem noOverflowWithoutCapacity : Obligations.NoOverflowWithoutCapacity := by
  intro s t hcap hcmd hrun herr hstep
  have hcode : ∀ e : ErrorKind, e ≠ .stackOverflow → e.code ≠ 8 :=
    fun e => mt e.code_eq_eight_iff.mp
  cases stepOutcome_of_step hstep with
  | executed _ _ _ hexec =>
    cases hexec with
    | failed hf => exact hcode _ hf.ne_stackOverflow
    | overflowed _ _ hblocks =>
      rw [State.blocks_inf (s := s.afterBoundary) hcap] at hblocks
      cases hblocks
    | completed => exact herr
  | ended => exact herr
  | undecodable _ _ _ he => exact hcode _ he
  | waiting => exact herr
  | reset h | presented h | started h | startIgnored h => cases hcmd.symm.trans h

/-- Settles O38, by the ways a step can go. -/
theorem statusTransitions : Obligations.StatusTransitions := by
  intro s t hstep
  cases stepOutcome_of_step hstep with
  | reset hcmd => simp only [hcmd]; rfl
  | presented hcmd => simp only [hcmd]; rfl
  | started hcmd => simp only [hcmd]; rfl
  | startIgnored hcmd hrun => simp only [hcmd]; exact hrun
  | executed hcmd hrun hbytes hexec =>
    have hlt : ¬ s.program.length ≤ s.pc.toNat := Nat.not_le_of_lt (State.pc_lt_progLen hbytes)
    simp only [hcmd, if_pos hrun, if_neg hlt]
    rcases hexec.status_cases with ⟨hstatus, -⟩ | ⟨e, hstatus, herr⟩
    · exact .inl (hstatus.trans hrun)
    · exact .inr ⟨hstatus, e, herr⟩
  | ended hcmd hrun hend =>
    have hend : s.program.length ≤ s.pc.toNat := hend
    simp only [hcmd, if_pos hrun, if_pos hend]
    rfl
  | undecodable hcmd hrun hlt =>
    have hlt : ¬ s.program.length ≤ s.pc.toNat := Nat.not_le_of_lt hlt
    simp only [hcmd, if_pos hrun, if_neg hlt]
    exact .inr ⟨rfl, _, rfl⟩
  | waiting hcmd hrun => simp only [hcmd, if_neg hrun]; rfl

/-- Settles O39, by the ways a step can go: the others keep `err`. -/
theorem errIsWrittenInTwoPlaces : Obligations.ErrIsWrittenInTwoPlaces := by
  intro s t hstep hne
  cases stepOutcome_of_step hstep with
  | reset hcmd => exact .inr ⟨.inr hcmd, rfl⟩
  | started hcmd => exact .inr ⟨.inl hcmd, rfl⟩
  | executed hcmd hrun _ hexec =>
    rcases hexec.status_cases with ⟨-, herr⟩ | ⟨e, hstatus, herr⟩
    · exact absurd herr hne
    · exact .inl ⟨hcmd, hrun, hstatus, e, herr⟩
  | undecodable hcmd hrun => exact .inl ⟨hcmd, hrun, rfl, _, rfl⟩
  | presented | startIgnored | ended | waiting => exact absurd rfl hne

/-- Settles O36: with no command and no run, a step only uses up the boundary's entry. -/
theorem noStepUnlessRunning : Obligations.NoStepUnlessRunning :=
  fun _ hcmd hrun => step_waiting hcmd hrun

end Sys2Proof.Machine
end

section
/-! PROOFS. The invariant of every state of a run (10_state.md sections 2 to 5). -/

namespace Sys2Proof.Machine

variable {s t : State} {i : Instr}

theorem ErrorKind.code_ne_errNone (e : ErrorKind) : e.code ≠ errNone := by
  cases e <;> decide

theorem ErrorKind.code_le_eight (e : ErrorKind) : e.code ≤ 8 := by
  cases e <;> decide

theorem errNone_le_eight : errNone ≤ 8 := by decide

/-- A halt on an error meets the two clauses of the invariant on the registers of status. -/
theorem State.raised_errMatchesStatus (s : State) (e : ErrorKind) :
    (s.raised e).errMatchesStatus = true := by
  simp [State.errMatchesStatus, e.code_ne_errNone]

/-- The capacity is a bound on the depth. -/
theorem StackCap.allows_of_le {c : StackCap} {d d' : Nat} (h : c.allows d = true) (hle : d' ≤ d) :
    c.allows d' = true := by
  cases c with
  | inf => rfl
  | finite n =>
    simp only [StackCap.allows, decide_eq_true_eq] at h ⊢
    omega

theorem StackCap.allows_zero (c : StackCap) : c.allows 0 = true := by
  cases c with
  | inf => rfl
  | finite n => exact decide_eq_true (Nat.zero_le n)

/-- A stack within the capacity that is not full has room. -/
theorem State.hasRoom_of_full_eq_false (hfits : s.stackFits = true) (h : s.full = false) :
    s.hasRoom = true := by
  unfold State.stackFits at hfits
  unfold State.full at h
  unfold State.hasRoom
  cases hc : s.config.stackCap with
  | inf => rfl
  | finite n =>
    simp only [hc, StackCap.allows, decide_eq_true_eq, beq_eq_false_iff_ne] at hfits h ⊢
    omega

theorem State.afterPops_depth (s : State) (i : Instr) :
    (s.afterPops i).depth = s.depth - popCount i := by
  simp [State.afterPops, State.depth]

theorem State.afterPops_stackFits (hfits : s.stackFits = true) (i : Instr) :
    (s.afterPops i).stackFits = true :=
  StackCap.allows_of_le hfits (by rw [State.afterPops_depth]; exact Nat.sub_le ..)

/-- A completed instruction has put at most one value on the stack that its pops left. -/
theorem State.depth_of_effect {m m' : Memory} {p p' : BitVec 32} {l : Nat} {r ops res : List Word}
    (hs : s.stack = r ++ ops) (h : Effect m p l i ops res m' p') :
    (r ++ res).length = (s.afterPops i).depth + (pushes i).toNat := by
  have hadd := h.length_add
  have hle := h.popCount_le
  rw [State.afterPops_depth, State.depth, hs, List.length_append, List.length_append]
  omega

/-- An instruction keeps the depth within the capacity: its push finds room or does not happen. -/
theorem ExecOutcome.stackFits (h : ExecOutcome i s t) (hfits : s.stackFits = true) :
    t.stackFits = true := by
  have hpopped := State.afterPops_stackFits hfits i
  cases h with
  | failed => exact hpopped
  | overflowed => exact hpopped
  | @completed r ops res m p hs heff hroom =>
    have hdepth := State.depth_of_effect hs heff
    show s.config.stackCap.allows (r ++ res).length = true
    rw [hdepth]
    cases hp : pushes i with
    | false => exact hpopped
    | true =>
      rw [State.blocks, hp, Bool.true_and] at hroom
      exact State.hasRoom_of_full_eq_false hpopped hroom

/-- Only a data address is ever written. -/
theorem Effect.mem_wf {m m' : Memory} {p p' : BitVec 32} {l : Nat} {ops res : List Word}
    (h : Effect m p l i ops res m' p') (hwf : m.wf) : m'.wf := by
  cases h with
  | store hb => exact Memory.wf_write hwf (dataAddress_lt_of_inBounds hb) _
  | _ => exact hwf

/-- A halt on an error keeps the invariant. -/
theorem State.Inv.raised (h : s.Inv) (e : ErrorKind) : (s.raised e).Inv :=
  ⟨h.configWf, h.memWf, h.stackFits, h.programAdmitted, s.raised_errMatchesStatus e,
    e.code_le_eight⟩

/-- The pops of an instruction keep the invariant. -/
theorem State.Inv.afterPops (h : s.Inv) (i : Instr) : (s.afterPops i).Inv :=
  ⟨h.configWf, h.memWf, State.afterPops_stackFits h.stackFits i, h.programAdmitted,
    h.errMatchesStatus, h.errCode⟩

/-- Every instruction keeps the invariant. -/
theorem ExecOutcome.inv (h : ExecOutcome i s t) (hinv : s.Inv) : t.Inv := by
  have hfits := h.stackFits hinv.stackFits
  cases h with
  | failed | overflowed => exact (hinv.afterPops i).raised _
  | completed hs heff =>
    exact ⟨hinv.configWf, heff.mem_wf hinv.memWf, hfits, hinv.programAdmitted,
      hinv.errMatchesStatus, hinv.errCode⟩

/-- The schedule is no part of the invariant. -/
theorem State.Inv.afterBoundary (h : s.Inv) : s.afterBoundary.Inv :=
  ⟨h.configWf, h.memWf, h.stackFits, h.programAdmitted, h.errMatchesStatus, h.errCode⟩

/-- A status other than HALTED_ERR goes with no error. -/
theorem State.Inv.withStatus_errNone (h : s.Inv) {x : Status} (hx : x ≠ .haltedErr) :
    (s.withStatus x errNone).Inv :=
  ⟨h.configWf, h.memWf, h.stackFits, h.programAdmitted, by simp [State.errMatchesStatus, hx],
    errNone_le_eight⟩

/-- Where the invariant holds there is no error but in HALTED_ERR. -/
theorem State.Inv.err_eq_errNone (h : s.Inv) (hs : s.status ≠ .haltedErr) : s.err = errNone := by
  simpa [State.errMatchesStatus, hs] using h.errMatchesStatus

/-- Settles O40: each clause is evaluated at the reset state. -/
theorem resetHasInvariant : Obligations.ResetHasInvariant :=
  ⟨by decide, reset_mem_wf, by decide, by decide, by decide, by decide⟩

/-- RESET leaves the invariant with any legal parameters and any program they allow. -/
theorem reset_inv {p : List Byte} {h : List (Option HostCommand)} {c : Config} (hc : c.wf = true)
    (hp : c.admits p = true) :
    State.Inv { State.reset with program := p, host := h, config := c } :=
  ⟨hc, reset_mem_wf, StackCap.allows_zero c.stackCap, hp, rfl, errNone_le_eight⟩

/-- Settles O41, by the ways a step can go. -/
theorem stepKeepsInvariant : Obligations.StepKeepsInvariant := by
  intro s t hinv hstep
  have hnext := hinv.afterBoundary
  cases stepOutcome_of_step hstep with
  | reset => exact reset_inv hinv.configWf hinv.programAdmitted
  | presented _ hadm =>
    exact ⟨hinv.configWf, hinv.memWf, hinv.stackFits, hadm, hinv.errMatchesStatus, hinv.errCode⟩
  | started => exact hnext.withStatus_errNone nofun
  | startIgnored => exact hnext
  | executed _ _ _ hexec => exact hexec.inv hnext
  | ended _ hrun =>
    rw [hinv.err_eq_errNone (by rw [hrun]; nofun)]
    exact hnext.withStatus_errNone nofun
  | undecodable => exact hnext.raised _
  | waiting => exact hnext

end Sys2Proof.Machine
end

section
/-! PROOFS. `pc` stays within the program (10_state.md R20). -/

namespace Sys2Proof.Machine

variable {s t : State} {i : Instr}

theorem length_encode_of_aluOp {f : Int → Int → Int} (h : aluOp i = some f) :
    (encode i).length = 1 := by
  cases i <;> cases h <;> rfl

/-- A completed instruction moves `pc` past its own bytes, or it is a jump and `pc` is a valid target. -/
theorem Effect.pc_cases {m m' : Memory} {p p' : BitVec 32} {l : Nat} {ops res : List Word}
    (h : Effect m p l i ops res m' p') :
    p' = p + BitVec.ofNat 32 (encode i).length ∨ (i = .jmp ∨ i = .jumpIf) ∧ p'.toNat < l := by
  have htarget : ∀ {t : Word}, validTarget t l = true → (targetPc t).toNat < l := fun hv => by
    have hlt := ((validTarget_iff _ _).mp hv).2
    rw [← toNat_targetPc_of_validTarget hv] at hlt
    exact Int.ofNat_lt.mp hlt
  cases h with
  | jmp hv => exact .inr ⟨.inl rfl, htarget hv⟩
  | @jumpIf t c hv =>
    by_cases hc : c = 0
    · rw [if_pos hc]
      exact .inl rfl
    · rw [if_neg hc]
      exact .inr ⟨.inr rfl, htarget hv⟩
  | alu hop =>
    rw [length_encode_of_aluOp hop]
    exact .inl rfl
  | _ => exact .inl rfl

/-- The bytes of an instruction at `pc` lie within the program. -/
theorem State.pc_add_length_le {rest : List Byte} (h : s.bytesAtPc = encode i ++ rest) :
    s.pc.toNat + (encode i).length ≤ s.progLen := by
  have hlen := congrArg List.length h
  have hlt := State.pc_lt_progLen h
  simp only [State.bytesAtPc, List.length_drop, List.length_append] at hlen
  unfold State.progLen at *
  omega

/-- The allowed programs have a length that `pc` can hold. -/
theorem State.Inv.progLen_lt (h : s.Inv) : s.progLen < 2 ^ 32 := by
  have hwf := h.configWf
  have hadm := h.programAdmitted
  simp only [Config.wf, Bool.and_eq_true, decide_eq_true_eq] at hwf
  simp only [Config.admits, decide_eq_true_eq] at hadm
  unfold State.progLen
  omega

/-- Past an instruction's bytes `pc` does not wrap. -/
theorem State.Inv.toNat_pc_add {rest : List Byte} (hinv : s.Inv)
    (h : s.bytesAtPc = encode i ++ rest) :
    (s.pc + BitVec.ofNat 32 (encode i).length).toNat = s.pc.toNat + (encode i).length := by
  have hle := State.pc_add_length_le h
  have hlt := hinv.progLen_lt
  rw [BitVec.toNat_add, BitVec.toNat_ofNat]
  omega

theorem ExecOutcome.pcWithinProgram {rest : List Byte} (hexec : ExecOutcome i s t) (hinv : s.Inv)
    (hbytes : s.bytesAtPc = encode i ++ rest) : t.pcWithinProgram := by
  have hpc : s.pcWithinProgram := (State.pc_lt_progLen hbytes).le
  cases hexec with
  | failed | overflowed => exact hpc
  | @completed _ _ _ _ p hs heff =>
    show p.toNat ≤ s.progLen
    rcases heff.pc_cases with rfl | ⟨-, hlt⟩
    · rw [hinv.toNat_pc_add hbytes]
      exact State.pc_add_length_le hbytes
    · exact hlt.le

theorem ExecOutcome.program_eq (h : ExecOutcome i s t) : t.program = s.program := by
  cases h <;> rfl

/-- A running instruction that leaves the CORE running has completed, and unless it is a jump it has moved
`pc` by its length. -/
theorem ExecOutcome.toNat_pc {rest : List Byte} (hexec : ExecOutcome i s t) (hinv : s.Inv)
    (hbytes : s.bytesAtPc = encode i ++ rest) (ht : t.status = .running) (hjmp : i ≠ .jmp)
    (hjumpIf : i ≠ .jumpIf) : t.pc.toNat = s.pc.toNat + (encode i).length := by
  cases hexec with
  | failed | overflowed => cases ht
  | @completed _ _ _ _ p hs heff =>
    show p.toNat = s.pc.toNat + (encode i).length
    rcases heff.pc_cases with rfl | ⟨rfl | rfl, -⟩
    · exact hinv.toNat_pc_add hbytes
    · exact absurd rfl hjmp
    · exact absurd rfl hjumpIf

/-- A step leaves `pc` in the program, which the host keeps. -/
theorem StepOutcome.pcWithinProgram (h : StepOutcome s t) (hinv : s.Inv) (hkeep : s.hostKeepsProgram)
    (hpc : s.pcWithinProgram) : t.pcWithinProgram ∧ t.program = s.program := by
  cases h with
  | reset => exact ⟨Nat.zero_le _, rfl⟩
  | presented hcmd =>
    obtain rfl := hkeep _ hcmd
    exact ⟨hpc, rfl⟩
  | executed _ _ hbytes hexec =>
    exact ⟨hexec.pcWithinProgram hinv.afterBoundary hbytes, hexec.program_eq⟩
  | started | startIgnored | ended | undecodable | waiting => exact ⟨hpc, rfl⟩

/-- Settles O42: the program ends behind the bytes of every instruction, so adding their number neither
leaves it nor wraps, and a jump's target was checked. -/
theorem pcStaysWithinProgram : Obligations.PcStaysWithinProgram := by
  intro s t hinv hkeep hpc hstep
  obtain ⟨hwithin, hprog⟩ := (stepOutcome_of_step hstep).pcWithinProgram hinv hkeep hpc
  refine ⟨hwithin, hprog, fun i rest hcmd hrun ht hjmp hjumpIf hdec => ?_⟩
  have hbytes : s.bytesAtPc = encode i ++ rest := eq_encode_append_of_decode hdec
  rw [step_executed hcmd hrun hbytes] at hstep
  exact (exec_eq_next_iff.mp hstep).toNat_pc hinv.afterBoundary hbytes ht hjmp hjumpIf

end Sys2Proof.Machine
end

section
/-! PROOFS. Data memory along a run (20_memory.md R45, 10_state.md section 3). -/

namespace Sys2Proof.Machine

variable {s t u : State} {i : Instr} {a : Nat} {v : Word}

/-! ### What a step does to memory -/

theorem exists_bytesAtPc_of_fetch (h : fetch s = .ok i) : ∃ rest, s.bytesAtPc = encode i ++ rest := by
  cases hdec : decode s.bytesAtPc with
  | ok d =>
    rw [fetch_ok (i := d.1) (rest := d.2) hdec] at h
    cases h
    exact ⟨d.2, eq_encode_append_of_decode hdec⟩
  | error e =>
    rw [fetch_error hdec] at h
    cases h

/-- What `storesNext` is on a stack of two values or more, where the step runs a Store. -/
theorem State.storesNext_of_store {r : List Word} {addr : Word} (hcmd : s.pendingCommand = none)
    (hrun : s.status = .running) (hfetch : fetch s = .ok .store) (hs : s.stack = r ++ [v, addr]) :
    s.storesNext = if inBounds addr then some (dataAddress addr, v) else none := by
  simp [State.storesNext, hcmd, hrun, hfetch, hs]

/-- The next step is said to store only if it runs a Store on a value and an address in bounds. -/
theorem State.store_of_storesNext (h : s.storesNext = some (a, v)) :
    s.pendingCommand = none ∧ s.status = .running ∧ fetch s = .ok .store ∧
      ∃ r addr, s.stack = r ++ [v, addr] ∧ inBounds addr = true ∧ dataAddress addr = a := by
  have hstore : s.pendingCommand = none ∧ s.status = .running ∧ fetch s = .ok .store := by
    by_contra hno
    rw [State.storesNext, if_neg hno] at h
    cases h
  obtain ⟨hcmd, hrun, hfetch⟩ := hstore
  refine ⟨hcmd, hrun, hfetch, ?_⟩
  rcases s.stack_cases_two with hs | ⟨x, hs⟩ | ⟨r, w, addr, hs⟩
  · simp [State.storesNext, hs] at h
  · simp [State.storesNext, hs] at h
  · rw [State.storesNext_of_store hcmd hrun hfetch hs] at h
    split at h
    next hb =>
      cases h
      exact ⟨r, addr, hs, hb, rfl⟩
    next => cases h

/-- A step that `storesNext` announces is that Store, completed. -/
theorem mem_of_storesNext (h : s.storesNext = some (a, v)) (hstep : step s = .next t) :
    a < memWords ∧ t.mem = s.mem.write a v := by
  obtain ⟨hcmd, hrun, hfetch, r, addr, hs, hb, rfl⟩ := State.store_of_storesNext h
  obtain ⟨rest, hbytes⟩ := exists_bytesAtPc_of_fetch hfetch
  have hdone := execStore_done (s := s.afterBoundary) hs hb
  cases ((step_executed hcmd hrun hbytes).trans hdone).symm.trans hstep
  exact ⟨dataAddress_lt_of_inBounds hb, rfl⟩

/-- A completed instruction of a step writes memory only as `storesNext` announced. -/
theorem ExecOutcome.mem_cases {rest : List Byte} (h : ExecOutcome i s.afterBoundary t)
    (hcmd : s.pendingCommand = none) (hrun : s.status = .running)
    (hbytes : s.bytesAtPc = encode i ++ rest) :
    t.mem = s.mem ∨ ∃ a v, s.storesNext = some (a, v) := by
  cases h with
  | failed | overflowed => exact .inl rfl
  | completed hs heff =>
    cases heff with
    | alu | push | pop | load | jmp | jumpIf | dup | swap | rot | overNos | pick => exact .inl rfl
    | store hb =>
      have hnext := State.storesNext_of_store hcmd hrun (fetch_of_bytesAtPc hbytes) hs
      rw [if_pos hb] at hnext
      exact .inr ⟨_, _, hnext⟩

/-- Every step but a RESET leaves memory, or writes the one word that `storesNext` announces. -/
theorem mem_cases_of_step (hstep : step s = .next t) (hreset : s.pendingCommand ≠ some .reset) :
    t.mem = s.mem ∨
      ∃ a v, s.storesNext = some (a, v) ∧ a < memWords ∧ t.mem = s.mem.write a v := by
  have hcases : t.mem = s.mem ∨ ∃ a v, s.storesNext = some (a, v) := by
    cases stepOutcome_of_step hstep with
    | reset hcmd => exact absurd hcmd hreset
    | executed hcmd hrun hbytes hexec => exact hexec.mem_cases hcmd hrun hbytes
    | presented | started | startIgnored | ended | undecodable | waiting => exact .inl rfl
  exact hcases.imp_right fun ⟨a, v, h⟩ => ⟨a, v, h, mem_of_storesNext h hstep⟩

/-! ### The word at one address along a run -/

/-- Memory is in canonical form and its word at `a` is `v`: what the last Store to `a` leaves behind. -/
def State.Holds (s : State) (a : Nat) (v : Word) : Prop := s.mem.wf ∧ s.mem.read a = v

theorem holds_of_storesNext (hwf : s.mem.wf) (h : s.storesNext = some (a, v))
    (hstep : step s = .next t) : t.Holds a v := by
  obtain ⟨ha, hmem⟩ := mem_of_storesNext h hstep
  rw [State.Holds, hmem]
  exact ⟨Memory.wf_write hwf ha v, Memory.read_write_same hwf a v⟩

theorem holds_of_reset (hcmd : s.pendingCommand = some .reset) (hstep : step s = .next t) :
    t.Holds a 0 := by
  cases (step_reset hcmd).symm.trans hstep
  exact ⟨reset_mem_wf, reset_mem_read a⟩

/-- A step that is no RESET and does not store to `a` keeps the word there. -/
theorem State.Holds.step (h : s.Holds a v) (hstep : step s = .next t)
    (hreset : s.pendingCommand ≠ some .reset) (hother : ∀ w, s.storesNext ≠ some (a, w)) :
    t.Holds a v := by
  obtain ⟨hwf, hread⟩ := h
  rcases mem_cases_of_step hstep hreset with hmem | ⟨b, w, hstore, hb, hmem⟩
  · rw [State.Holds, hmem]
    exact ⟨hwf, hread⟩
  · have hne : a ≠ b := by
      rintro rfl
      exact hother w hstore
    rw [State.Holds, hmem, Memory.read_write_other hwf hne]
    exact ⟨Memory.wf_write hwf hb w, hread⟩

theorem State.Holds.of_reachedKeeping (h : s.Holds a v) (hreach : ReachedKeeping a s u) :
    u.Holds a v := by
  induction hreach with
  | here => exact h
  | more s t u hstep hreset hother _ ih => exact ih (h.step hstep hreset hother)

/-- A Load within the capacity whose address is in bounds completes. -/
theorem execLoad_of_stackFits {r : List Word} {addr : Word} (hs : s.stack = r ++ [addr])
    (hfits : s.stackFits = true) (hb : inBounds addr = true) :
    execLoad s = .next ((s.withStack (r ++ [s.mem.read (dataAddress addr)])).withPc (s.pc + 1)) :=
  execLoad_done hs hb (State.full_withStack_of_stackFits hfits (by simp [State.depth, hs]))

/-- Settles O16: the address is popped, then its bounds decide whether the word or the error follows. -/
theorem loadInstruction : Obligations.LoadInstruction := by
  refine ⟨fun _ => rfl, fun s r addr hs hfits => ⟨fun hlow hhigh => ?_, fun hout => ?_⟩,
    fun _ hempty => execLoad_empty hempty⟩
  · have hb : inBounds addr = true := (inBounds_iff addr).mpr ⟨hlow, hhigh⟩
    rw [← dataAddress_eq_toInt_of_inBounds hb, Int.toNat_natCast]
    exact execLoad_of_stackFits hs hfits hb
  · exact execLoad_outside hs ((inBounds_eq_false_iff addr).mpr hout)

/-- Settles O32: the Store or the RESET puts the word there, every further step keeps it, by induction
over them, and the Load reads it. -/
theorem loadReturnsLastStore : Obligations.LoadReturnsLastStore := by
  intro s t u a v hwf hsource hstep hreach r addr hs haddr ha hfits
  have hholds : t.Holds a v := by
    rcases hsource with hstore | ⟨hreset, rfl⟩
    · exact holds_of_storesNext hwf hstore hstep
    · exact holds_of_reset hreset hstep
  obtain ⟨-, hread⟩ := hholds.of_reachedKeeping hreach
  have hb : inBounds addr = true := (inBounds_iff addr).mpr (by omega)
  have hname : dataAddress addr = a :=
    Int.ofNat_inj.mp ((dataAddress_eq_toInt_of_inBounds hb).trans haddr)
  rw [← hread, ← hname]
  exact execLoad_of_stackFits hs hfits hb

/-! ### Canonical memories -/

/-- A listed word is not what an unlisted one reads as. -/
theorem Memory.head_ne_unlisted {b : Nat} {w : Word} {m : Memory} (h : Memory.wf ((b, w) :: m)) :
    w ≠ Memory.unlisted := (h.2 (b, w) (by simp)).2

/-- Below its first cell a canonical memory lists nothing, so one that reads alike begins no later. -/
theorem Memory.head_le_of_read_eq {b c : Nat} {w x : Word} {m n : Memory}
    (hm : Memory.wf ((b, w) :: m)) (hn : Memory.wf ((c, x) :: n))
    (h : ∀ a : Nat, Memory.read ((b, w) :: m) a = Memory.read ((c, x) :: n) a) : c ≤ b := by
  by_contra hlt
  have hbelow : ∀ d ∈ (c, x) :: n, b < d.1 := by
    simp only [List.mem_cons]
    rintro d (rfl | hd)
    · exact Nat.lt_of_not_le hlt
    · exact (Nat.lt_of_not_le hlt).trans (Memory.head_lt hn d hd)
  have hread := h b
  rw [Memory.read_of_forall_lt hbelow, Memory.read_cons, if_pos rfl] at hread
  exact Memory.head_ne_unlisted hm hread

/-- A canonical memory with a cell does not read as the empty one. -/
theorem Memory.read_head_ne_unlisted {c : Nat × Word} {m : Memory} (h : Memory.wf (c :: m)) :
    Memory.read (c :: m) c.1 ≠ Memory.unlisted := by
  rw [show c :: m = (c.1, c.2) :: m from rfl, Memory.read_cons, if_pos rfl]
  exact Memory.head_ne_unlisted h

/-- Memories that read alike and begin with the same cell go on alike: what follows lies above. -/
theorem Memory.read_tail_eq {b : Nat} {w : Word} {m n : Memory} (hm : Memory.wf ((b, w) :: m))
    (hn : Memory.wf ((b, w) :: n))
    (h : ∀ a : Nat, Memory.read ((b, w) :: m) a = Memory.read ((b, w) :: n) a) (a : Nat) :
    m.read a = n.read a := by
  by_cases hab : b = a
  · rw [← hab, Memory.read_of_forall_lt (Memory.head_lt hm),
      Memory.read_of_forall_lt (Memory.head_lt hn)]
  · simpa only [Memory.read_cons, if_neg hab] using h a

/-- Settles O33, cell by cell: the first cells have one address and one word, and the rests read alike. -/
theorem canonicalMemoryIsDeterminedByReads : Obligations.CanonicalMemoryIsDeterminedByReads := by
  intro m
  induction m with
  | nil =>
    intro n _ hn hread
    cases n with
    | nil => rfl
    | cons c n => exact absurd (hread c.1).symm (Memory.read_head_ne_unlisted hn)
  | cons d m ih =>
    intro n hm hn hread
    cases n with
    | nil => exact absurd (hread d.1) (Memory.read_head_ne_unlisted hm)
    | cons c n =>
      obtain ⟨b, w⟩ := d
      obtain ⟨c, x⟩ := c
      obtain rfl : b = c := Nat.le_antisymm
        (Memory.head_le_of_read_eq hn hm fun a => (hread a).symm)
        (Memory.head_le_of_read_eq hm hn hread)
      obtain rfl : w = x := by simpa using hread b
      have htail := Memory.read_tail_eq hm hn hread
      rw [ih n (Memory.wf_tail hm) (Memory.wf_tail hn) htail]

end Sys2Proof.Machine
end

section
/-! PROOFS. The execute loop on decoded bytes, and the resuming of a run (30_encoding.md section 7,
60_exceptions.md R90). -/

namespace Sys2Proof.Machine

variable {s t : State} {i : Instr}

/-- The byte at `pc` is the first of the bytes from `pc` on. -/
theorem State.head?_bytesAtPc (s : State) : s.bytesAtPc.head? = s.program[s.pc.toNat]? := by
  simp [State.bytesAtPc]

/-- Settles O34, by what the bytes at `pc` are. -/
theorem stepRunsDecodedInstruction : Obligations.StepRunsDecodedInstruction := by
  refine ⟨fun _ => rfl, fun s hcmd hrun => ⟨fun i rest hdec => ?_, fun hend => ?_,
    fun b hb hinv => ?_⟩⟩
  · exact step_of_decode_ok hcmd hrun hdec
  · exact step_endOfProgram hcmd hrun hend
  · rw [← State.head?_bytesAtPc, List.head?_eq_some_iff] at hb
    obtain ⟨rest, hbytes⟩ := hb
    exact step_invalidOpcode hcmd hrun hbytes hinv

/-- An instruction of a RUNNING CORE that halts it on an error leaves `pc` where it was. -/
theorem ExecOutcome.pc_of_haltedErr (h : ExecOutcome i s t) (hrun : s.status = .running)
    (ht : t.status = .haltedErr) : t.pc = s.pc := by
  cases h with
  | failed | overflowed => rfl
  | completed => cases hrun.symm.trans ht

theorem State.pendingCommand_of_host_cons {c : HostCommand} {rest : List (Option HostCommand)}
    (h : s.host = some c :: rest) : s.pendingCommand = some c := by
  rw [State.pendingCommand, h]
  rfl

/-- Settles O45: the error left `pc` and the program, and so does the START, so the same bytes are
decoded again. -/
theorem resumeRunsFailingInstructionAgain : Obligations.ResumeRunsFailingInstructionAgain := by
  intro s t i rest hcmd hrun hdec hstep ht hhost
  have hbytes : s.bytesAtPc = encode i ++ rest := eq_encode_append_of_decode hdec
  rw [step_executed hcmd hrun hbytes] at hstep
  have hexec : ExecOutcome i s.afterBoundary t := exec_eq_next_iff.mp hstep
  have hagain : t.bytesAtPc = encode i ++ rest := by
    rw [State.bytesAtPc, hexec.program_eq, hexec.pc_of_haltedErr hrun ht]
    exact hbytes
  have hstart := step_start_accepted (State.pendingCommand_of_host_cons hhost) (by rw [ht]; nofun)
  have hlast : (t.afterBoundary.withStatus .running errNone).host = [] := congrArg List.tail hhost
  refine ⟨_, hstart, rfl, rfl, rfl, ?_⟩
  rw [step_executed (State.pendingCommand_of_host_nil hlast) rfl hagain,
    State.afterBoundary_of_host_nil hlast]

end Sys2Proof.Machine
end

section
/-! PROOFS. How a program comes to run (70_reset_and_hazards.md R100 to R103). -/

namespace Sys2Proof.Machine

variable {s : State}

theorem admits_iff (c : Config) (p : List Byte) : c.admits p = true ↔ p.length ≤ c.progLenMax :=
  decide_eq_true_iff

/-- Settles O46, by the two checks in their order. -/
theorem presentProgramCommand : Obligations.PresentProgramCommand := by
  intro s p hcmd
  refine ⟨fun hlen hkeep => ?_, fun hrun hp => step_present_changed hcmd hrun hp,
    fun hlong hkeep => ?_⟩
  · exact step_present hcmd hkeep ((admits_iff _ _).mpr hlen)
  · exact step_present_tooLong hcmd hkeep (decide_eq_false (Nat.not_le_of_lt hlong))

/-- Settles O51: the three commands one after the other. -/
theorem resetPresentStartBoots : Obligations.ResetPresentStartBoots := by
  intro s p hhost hlen
  have hreset := step_reset (State.pendingCommand_of_host_cons hhost)
  rw [hhost] at hreset
  exact ⟨_, _, _, hreset,
    step_present (p := p) (State.pendingCommand_of_host_cons rfl) nofun ((admits_iff _ _).mpr hlen),
    step_start_accepted (State.pendingCommand_of_host_cons rfl) nofun, rfl⟩

/-- Bytes placed at `a` stand there, followed by what was beyond them. -/
theorem drop_placeBytes (program : List Byte) (a : Nat) (bytes : List Byte) :
    (placeBytes program a bytes).drop a = bytes ++ program.drop (a + bytes.length) := by
  have hlen : (program.take a ++ List.replicate (a - program.length) 0).length = a := by
    simp only [List.length_append, List.length_take, List.length_replicate]
    omega
  rw [placeBytes, List.append_assoc, List.drop_left' hlen]

/-- The word that the decoder reads `i` from begins with the bytes of `i`. -/
theorem tableBytes_of_decodeTableWord {nbits w : Nat} {i : Instr}
    (h : decodeTableWord nbits w = some i) : ∃ rest, tableBytes nbits w = encode i ++ rest := by
  cases hdec : decode (tableBytes nbits w) with
  | ok d =>
    simp only [decodeTableWord, hdec, Option.some.injEq] at h
    subst h
    exact ⟨d.2, eq_encode_append_of_decode hdec⟩
  | error e => simp [decodeTableWord, hdec] at h

/-- Settles O49: the bytes from `pc` on begin with the word's, and there is no command to come. -/
theorem stepRunsPlacedWord : Obligations.StepRunsPlacedWord := by
  intro s nbits w i hword
  obtain ⟨rest, hplaced⟩ := tableBytes_of_decodeTableWord hword
  have hbytes : (s.withFetchWord nbits w).bytesAtPc = encode i ++ (rest ++ _) :=
    (drop_placeBytes ..).trans (by rw [hplaced, List.append_assoc])
  have hhost : (s.withFetchWord nbits w).host = [] := rfl
  rw [step_executed (State.pendingCommand_of_host_nil hhost) rfl hbytes,
    State.afterBoundary_of_host_nil hhost]

end Sys2Proof.Machine
end

section
/-! PROOFS. The read-back ports (10_state.md R26, R27). -/

namespace Sys2Proof.Machine

variable {s : State} {n : Nat}

/-- Settles O47, port by port. -/
theorem readBackWhileNotRunning : Obligations.ReadBackWhileNotRunning := by
  refine ⟨fun s => ?_, fun n s hrun => ⟨if_neg hrun, if_neg hrun, if_neg hrun, fun idx v hv => ?_,
    fun _ => if_neg hrun⟩⟩
  · unfold readStatus
    cases s.status <;> rfl
  · simp [readStkData, hrun, hv]

/-- The port's width is the least number of bits that holds the capacity. -/
theorem depthPortWidth_bounds {c : Nat} (hc : 0 < c) :
    c + 1 ≤ 2 ^ (c.log2 + 1) ∧ 2 ^ c.log2 < c + 1 :=
  ⟨Nat.lt_log2_self, Nat.lt_succ_of_le (Nat.log2_self_le hc.ne')⟩

theorem readDepth_of_running {w : Nat} (hrun : s.status = .running)
    (hw : depthPortWidth s.config.stackCap = some w) :
    readDepth n s = Config.freeDepth n % 2 ^ w := by
  simp [readDepth, hrun, hw]

theorem readDepth_of_not_running (hrun : s.status ≠ .running) : readDepth n s = s.depth :=
  if_neg hrun

/-- Settles O48: while RUNNING the value is cut to the width, and else the depth is at most the
capacity. -/
theorem depthPortFits : Obligations.DepthPortFits := by
  intro c n s hc hcap hfits
  obtain ⟨hle, hlt⟩ := depthPortWidth_bounds hc
  have hwidth : depthPortWidth s.config.stackCap = some (c.log2 + 1) := by
    rw [hcap]
    rfl
  refine ⟨c.log2 + 1, hwidth, hle, hlt, ?_⟩
  by_cases hrun : s.status = .running
  · rw [readDepth_of_running hrun hwidth]
    exact Nat.mod_lt _ (Nat.two_pow_pos _)
  · have hdepth : s.depth ≤ c := by
      simpa [State.stackFits, hcap, StackCap.allows] using hfits
    rw [readDepth_of_not_running hrun]
    exact (Nat.lt_succ_of_le hdepth).trans_le hle

end Sys2Proof.Machine
end

section
/-! PROOFS. The arithmetic law (00_scope.md R10, 41_arithmetic.md R67). -/

namespace Sys2Proof.Machine

/-- Settles O11: `toInt` tells words apart, and both sides say that two numbers are congruent modulo
`2 ^ 32`. -/
theorem wrapIsTheUniqueResidue : Obligations.WrapIsTheUniqueResidue := by
  intro x w
  calc w = wrap32 x
      ↔ w.toInt = x.bmod (2 ^ 32) := by rw [← BitVec.toInt_inj, wrap32, BitVec.toInt_ofInt]
    _ ↔ w.toInt.bmod (2 ^ 32) = x.bmod (2 ^ 32) := by rw [BitVec.toInt_bmod_cancel]
    _ ↔ (w.toInt - x).bmod (2 ^ 32) = 0 := Int.bmod_eq_bmod_iff_bmod_sub_eq_zero
    _ ↔ (2 ^ 32 : Int) ∣ w.toInt - x := Int.dvd_iff_bmod_eq_zero.symm
    _ ↔ (w.toInt - x) % 2 ^ 32 = 0 := Int.dvd_iff_emod_eq_zero

end Sys2Proof.Machine
end
